-- ==== Sys2Proof/Word.lean ====
section
/-! DEFINITION. The word types of the machine (00_scope.md R6, R8). Their arithmetic is that of `BitVec`: `a + b` and
`a - b` are the spec's `a +32 b` and `a -32 b` (R8), `a ^^^ b` its `a ^ b`; `toNat` is `u32`, `toInt` is `s32`. -/

namespace Sys2Proof

/-- A register, a data cell, an effective address, the program counter or an instruction word: 32 bits (R6, R8, R23). -/
abbrev Word := BitVec 32

/-- One byte field of an instruction word, and the flag byte (R25, R51). -/
abbrev Byte := BitVec 8

/-- A general register's index: 8 bits unsigned, so that every value names a register (R21). -/
abbrev Reg := BitVec 8

/-- The condition mask of a branch: bit 3 is the selector `i`, bits 2..0 check V, N and Z (R56, R98). -/
abbrev Mask := BitVec 4

end Sys2Proof
end

