-- ==== Sys2Proof/Config.lean ====
section
/-! DEFINITION. The parameters that 00_scope.md R6 fixes. Nothing here is a free value: the spec leaves no result of an
instruction open (93_implementation_defined.md section 1 treats no behaviour as "any value"), so the model needs no
opaque constant. The open parameter MEM_SIZE and the launch contents are held in `Machine.State`. -/

namespace Sys2Proof.Config

/-- The largest data memory that 32-bit effective addresses can reach, in cells (R6, R37). -/
def maxMemSize : Nat := 2 ^ 32

/-- Every admitted program has fewer instructions than this (R6, decision D1), so that a branch below address 0 lands
at or beyond the end of the program (R101). -/
def lenBound : Nat := 2 ^ 32 - 128

/-- DESIGN CHOICE (unsafe, log 2): MEM_SIZE in `State.reset`. The spec leaves MEM_SIZE open (R6, D2); 16 is the value
of every vector and program of 95_test_vectors.md. No statement rests on it. -/
def resetMemSize : Nat := 16

end Sys2Proof.Config
end

