-- ==== Sys2Proof/Syntax.lean ====
section
/-! DEFINITION. The instruction values (00_scope.md R10), the program in its two forms (R11) and the tool-time errors
(60_exceptions.md R121). -/

namespace Sys2Proof

/-- The closed set of instruction values (R2, R10), one constructor per row of opcode_table.json. A signed 8-bit
immediate, displacement or offset is held as its two's-complement byte (R52). -/
inductive Instr where
  /-- `add r<t> <- r<l>, r<r>` (R86). -/
  | add (target left right : Reg)
  /-- `sub r<t> <- r<l>, r<r>` (R87). -/
  | sub (target left right : Reg)
  /-- `xor r<t> <- r<l>, r<r>` (R88). -/
  | xor (target left right : Reg)
  /-- `addq r<t> <- r<l>, <imm>` (R89). -/
  | addq (target left : Reg) (imm : Byte)
  /-- `subq r<t> <- r<l>, <imm>` (R90). -/
  | subq (target left : Reg) (imm : Byte)
  /-- `ldq r<v> <- r<a>, <off>` (R94). -/
  | ldq (value addr : Reg) (off : Byte)
  /-- `stq r<v> -> r<a>, <off>` (R95). -/
  | stq (value addr : Reg) (off : Byte)
  /-- `brq-raw-<mask> <off>` (R100). -/
  | brq (mask : Mask) (off : Byte)
  /-- The placeholder, which has a meaning but no word (R103). -/
  | noop
deriving DecidableEq, Repr

/-- The program `IMem[0..LEN-1]` (R11, R36): of instruction values, or of 32-bit words that the engine decodes at
fetch. 90_conflicts.md C5 keeps both as two paths of one engine. -/
inductive Program where
  /-- The instruction-value path (R31). -/
  | values (instrs : List Instr)
  /-- The word path (R32). -/
  | words (image : List Word)
deriving DecidableEq, Repr

/-- `LEN`, the number of instructions of the program (R6, R124). -/
def Program.len : Program → Nat
  | .values instrs => instrs.length
  | .words image => image.length

/-- The errors of the tools that run before the engine and never during a run (R121). -/
inductive ToolError where
  /-- A source line matches no form; it holds the offending line (R80). -/
  | syntaxError (line : List Char)
  /-- A symbolic jump names a label that is defined nowhere (R77). -/
  | unresolvedLabelError (name : List Char)
  /-- A literal or a resolved offset does not fit its field (R73, R77). -/
  | rangeError (value : Int)
  /-- The instruction at this index is a `Noop`, which has no word (R63, R71). -/
  | encodingError (index : Nat)
deriving DecidableEq, Repr

end Sys2Proof
end

