-- ==== Sys2Proof/WellFormed.lean ====
section
/-! DEFINITION. The checks the spec makes of an instruction, a program and a memory size. Every field of `Instr` has
exactly its encoded width, so that an out-of-range register, immediate or mask cannot be written (R21, R62). -/

namespace Sys2Proof

/-- An instruction value is encodable unless it is the placeholder (R62, R63). -/
def Instr.encodable : Instr → Bool
  | .noop => false
  | .add .. | .sub .. | .xor .. | .addq .. | .subq .. | .ldq .. | .stq .. | .brq .. => true

/-- A well-formed instruction is an encodable one. -/
abbrev Instr.wellFormed (i : Instr) : Bool := i.encodable

/-- `0 <= LEN < 2^32 - 128` (R6, decision D1). -/
def Program.lenOk (p : Program) : Bool := decide (p.len < Config.lenBound)

/-- The program has a word image: it is one already, or it holds no `Noop` (R15, R71, R126). -/
def Program.hasWordImage : Program → Bool
  | .values instrs => instrs.all Instr.encodable
  | .words _ => true

/-- Assembler output never ends in a `Noop` (R79). -/
def noTrailingNoop (instrs : List Instr) : Bool := instrs.getLast? != some .noop

/-- `1 <= MEM_SIZE <= 2^32` (R6, R37). -/
def memSizeOk (n : Nat) : Bool := decide (1 ≤ n ∧ n ≤ Config.maxMemSize)

end Sys2Proof
end

