-- ==== Sys2Proof/Decode.lean ====
section
/-! DEFINITION. The decoder and the encoder (30_encoding.md sections 1 to 4): total, pure, with no state (R64, R68). -/

namespace Sys2Proof

/-- Byte 3, bits 31..24: the opcode (R51). -/
def opcodeOf (w : Word) : Byte := w.extractLsb' 24 8

/-- Byte 2, bits 23..16: operand 1 (R51). -/
def op1Of (w : Word) : Byte := w.extractLsb' 16 8

/-- Byte 1, bits 15..8: operand 2 (R51). -/
def op2Of (w : Word) : Byte := w.extractLsb' 8 8

/-- Byte 0, bits 7..0: operand 3, a register, an immediate or an offset (R51). -/
def op3Of (w : Word) : Byte := w.extractLsb' 0 8

/-- Bits 23..20 of a branch word, which must be zero (R56, R65). -/
def brqHighOf (w : Word) : BitVec 4 := w.extractLsb' 20 4

/-- Bits 19..16 of a branch word: the mask, `i` in bit 19, then V, N and Z (R56, decision D6). -/
def maskOf (w : Word) : Mask := w.extractLsb' 16 4

/-- The verdict `Illegal` (R64), by its two causes. -/
inductive Illegal where
  /-- One of the 248 opcodes that no instruction has (R59, decision D7). -/
  | undefinedOpcode (opcode : Byte)
  /-- A word with opcode 0x51 and a set bit in bits 23..20 or 15..8 (R65, decision D8). -/
  | mustBeZero (word : Word)
deriving DecidableEq, Repr

/-- The decoder: an instruction for each legal word, `Illegal` for every other one (R64). No word decodes to `Noop`
(R66). -/
def decode (w : Word) : Except Illegal Instr :=
  if opcodeOf w = 0x00 then .ok (.add (op1Of w) (op2Of w) (op3Of w))
  else if opcodeOf w = 0x01 then .ok (.sub (op1Of w) (op2Of w) (op3Of w))
  else if opcodeOf w = 0x07 then .ok (.xor (op1Of w) (op2Of w) (op3Of w))
  else if opcodeOf w = 0x10 then .ok (.addq (op1Of w) (op2Of w) (op3Of w))
  else if opcodeOf w = 0x11 then .ok (.subq (op1Of w) (op2Of w) (op3Of w))
  else if opcodeOf w = 0x30 then .ok (.ldq (op1Of w) (op2Of w) (op3Of w))
  else if opcodeOf w = 0x31 then .ok (.stq (op1Of w) (op2Of w) (op3Of w))
  else if opcodeOf w = 0x51 then
    if brqHighOf w = 0 ∧ op2Of w = 0 then .ok (.brq (maskOf w) (op3Of w)) else .error (.mustBeZero w)
  else .error (.undefinedOpcode (opcodeOf w))

/-- Why the encoder refuses an instruction value. -/
inductive EncodingError where
  /-- `Noop` has no word (R63, decision D9). -/
  | noWordForNoop
deriving DecidableEq, Repr

/-- Four byte fields as one word, byte 3 first (R51). -/
def packBytes (b3 b2 b1 b0 : Byte) : Word := b3 ++ b2 ++ b1 ++ b0

/-- The encoder (R62). Every instruction is exactly one word (R50); `Noop` has none (R63). -/
def encode : Instr → Except EncodingError Word
  | .add t l r => .ok (packBytes 0x00 t l r)
  | .sub t l r => .ok (packBytes 0x01 t l r)
  | .xor t l r => .ok (packBytes 0x07 t l r)
  | .addq t l imm => .ok (packBytes 0x10 t l imm)
  | .subq t l imm => .ok (packBytes 0x11 t l imm)
  | .ldq v a off => .ok (packBytes 0x30 v a off)
  | .stq v a off => .ok (packBytes 0x31 v a off)
  | .brq mask off => .ok (packBytes 0x51 (0#4 ++ mask) 0x00 off)
  | .noop => .error .noWordForNoop

/-- The word whose lowest `nbits` bits are those of `w`, with every bit above them zero. The spec gives words no byte
order in memory (R40, N18), so that a 32-bit number is the instruction word itself. -/
def tableWord (nbits w : Nat) : Word := BitVec.ofNat 32 (w % 2 ^ nbits)

/-- The instruction the decoder reads from a word numbered as opcode_table.json numbers its bits. -/
def decodeTableWord (nbits w : Nat) : Option Instr :=
  match decode (tableWord nbits w) with
  | .ok i => some i
  | .error _ => none

end Sys2Proof
end

