-- ==== Sys2Proof/Machine/State.lean ====
section
/-! DEFINITION. The state of the engine (10_state.md R18), why it stops, and the state after reset. -/

namespace Sys2Proof.Machine

/-- Which access raised a memory fault: a load reads, a store writes (R106). -/
inductive Access where
  | read
  | write
deriving DecidableEq, Repr

/-- The two exceptions of the engine with their records (R105 to R107). -/
inductive EngineException where
  /-- A load or store at an effective address at or above MEM_SIZE: the instruction's own address, the effective
  address and the access (R106). -/
  | memoryFault (pc ea : Word) (access : Access)
  /-- A fetched word that decodes to `Illegal`: its address and the word itself (R107). -/
  | illegalInstruction (pc word : Word)
deriving DecidableEq, Repr

/-- The run status (R30). -/
inductive Status where
  | running
  | halted
  | faulted (e : EngineException)
deriving DecidableEq, Repr

/-- Data memory (R37): the cells that hold a value other than the one an unlisted cell reads as, as pairs of a cell
index and the cell's 32 bits, by rising index. The cell is the unit of addressing and of access (R37, R42), and there
are no bytes to address (R40); see log 9. -/
abbrev Memory := List (Nat × Word)

/-- The state tuple `(x, F, pc, DMem, status)` of R18, and the two parameters of the run that a step reads and never
changes: the program (R36) and MEM_SIZE (R37). See log 1. -/
structure State where
  /-- The register file `x[0..255]` (R19). -/
  x : Vector Word 256
  /-- The flag byte `F`: V in bit 2, N in bit 1, Z in bit 0 (R25). -/
  flags : Byte
  /-- The program counter, in instructions (R23). -/
  pc : Word
  /-- The data memory `DMem` (R37). -/
  dmem : Memory
  /-- The run status (R30). -/
  status : Status
  /-- The program `IMem[0..LEN-1]` (R36). -/
  imem : Program
  /-- The number of data cells, `MEM_SIZE` (R37). -/
  memSize : Nat
deriving DecidableEq, Repr

/-- Why the machine has no next state. None of these is an exception of an instruction: an exception is a next state
whose status is `faulted` (R108, log 8). -/
inductive Fault where
  /-- Raised by `step` when the status is Halted: successful termination has no step (R34). Safe: the engine does
  nothing more. -/
  | halted
  /-- Raised by `step` when the status is Faulted, with the record the engine stopped on (R34). Safe: the engine does
  nothing more. -/
  | faulted (e : EngineException)
  /-- Raised by `step` when the status is Running and the program counter is at or beyond LEN, where no fetch happens
  (R36). R30 rules that state out and no run reaches it (log 10). Safe: the model stops. -/
  | beyondProgram
deriving DecidableEq, Repr

/-- Why an instruction is refused. -/
inductive Refusal where
  /-- Raised by an arm of `exec` whose instruction has no meaning. Safe: nothing is claimed of it. Every instruction
  of this machine has its meaning, so no arm raises it. -/
  | notModelled (mnemonic : String)
deriving DecidableEq, Repr

/-- The launch state of R122 with the empty program and nothing seeded: every register 0, the flag byte 0, the program
counter 0, every cell 0, and, as LEN is 0, the status Halted (R123). MEM_SIZE is the model's choice. See log 2 to 5. -/
def State.reset : State where
  x := Vector.replicate 256 0
  flags := 0x00
  pc := 0
  dmem := []
  status := .halted
  imem := .values []
  memSize := Config.resetMemSize

end Sys2Proof.Machine
end

