-- ==== Sys2Proof/Machine/Ops.lean ====
section
/-! DEFINITION. The operations over registers, data memory, the program counter and the status that every meaning is
made of, and taking an exception. -/

namespace Sys2Proof.Machine

/-- `x[i]` (R9): every one of the 256 registers is an ordinary one (R20). -/
def State.readReg (s : State) (i : Reg) : Word := s.x[i.toNat]'i.isLt

/-- `x[i] <- v` (R9). -/
def State.writeReg (s : State) (i : Reg) (v : Word) : State := { s with x := s.x.set i.toNat v i.isLt }

/-- `F <- f`: the whole byte is replaced (R26). -/
def State.writeFlags (s : State) (f : Byte) : State := { s with flags := f }

/-- `pc <- t` (R9). -/
def State.setPc (s : State) (t : Word) : State := { s with pc := t }

/-- `pc <- pc +32 1` (R24). -/
def State.advancePc (s : State) : State := s.setPc (s.pc + 1)

/-- What a cell reads as when nothing is listed for it: 0, the launch value of every cell the caller does not seed
(R122, decision D3). -/
def unlistedCell : Word := 0

/-- The cell at index `a` of a memory. -/
def readCell : Memory → Nat → Word
  | [], _ => unlistedCell
  | c :: m, a => if c.1 = a then c.2 else readCell m a

/-- The memory without a listed cell at index `a`: that cell then reads as an unlisted one. -/
def dropCell (m : Memory) (a : Nat) : Memory := m.filter fun c => c.1 != a

/-- The memory with `(a, v)` listed before the first cell of a higher index. -/
def insertCell : Memory → Nat → Word → Memory
  | [], a, v => [(a, v)]
  | c :: m, a, v => if a < c.1 then (a, v) :: c :: m else c :: insertCell m a v

/-- The memory with `v` in the cell at index `a` and every other cell as before, its indices still rising and no cell
listed that reads as an unlisted one does. -/
def writeCell (m : Memory) (a : Nat) (v : Word) : Memory :=
  if v = unlistedCell then dropCell m a else insertCell (dropCell m a) a v

/-- The canonical form: indices strictly rising, and no listed cell equal to an unlisted one. -/
def Memory.wf (m : Memory) : Bool :=
  decide (m.Pairwise fun c d => c.1 < d.1) && m.all fun c => c.2 != unlistedCell

/-- `DMem[a]`, with no bounds check: for the caller's view and for statements. -/
def State.cell (s : State) (a : Nat) : Word := readCell s.dmem a

/-- The state with `v` in data cell `a`. -/
def State.setCell (s : State) (a : Nat) (v : Word) : State := { s with dmem := writeCell s.dmem a v }

/-- `MemRead(a, 1)` (R39): the cell, or MemoryFault when `u32(a) >= MEM_SIZE`. -/
def State.memRead (s : State) (a : Word) : Except EngineException Word :=
  if s.memSize ≤ a.toNat then .error (.memoryFault s.pc a .read) else .ok (s.cell a.toNat)

/-- `MemWrite(a, 1, v)` (R39): the whole cell is replaced, or MemoryFault when `u32(a) >= MEM_SIZE`. -/
def State.memWrite (s : State) (a v : Word) : Except EngineException State :=
  if s.memSize ≤ a.toNat then .error (.memoryFault s.pc a .write) else .ok (s.setCell a.toNat v)

/-- Taking an exception (R108): the status becomes Faulted with the record, and nothing else changes; the program
counter still holds the address of the instruction that raised it. Nothing is saved elsewhere, masked or pushed, and
control goes to no handler (R109). There is no return from an exception: a fault is terminal (R113). -/
def State.raise (s : State) (e : EngineException) : State := { s with status := .faulted e }

/-- The exception's numeric code (R105, decision D13). -/
def EngineException.code : EngineException → Nat
  | .memoryFault .. => 1
  | .illegalInstruction .. => 2

/-- The last line of a step (R31): an engine that is still Running and whose program counter has left the program is
Halted, which is no exception (R30, R110). -/
def State.haltCheck (s : State) : State :=
  if s.status = .running ∧ s.imem.len ≤ s.pc.toNat then { s with status := .halted } else s

end Sys2Proof.Machine
end

