-- ==== Sys2Proof/Machine/Operands.lean ====
section
/-! DEFINITION. The operand forms: sign-extended immediates (30_encoding.md R57), the one addressing mode
(41_memory_access.md R93) and the branch target (42_control.md R101). -/

namespace Sys2Proof.Machine

/-- `sext_32(b)`: the word `w` with `s32(w) = s8(b)` (R8). No immediate is scaled, shifted or zero-extended (R57). -/
def sext32 (b : Byte) : Word := b.signExtend 32

/-- The effective address of a load or store, `x[a] +32 sext_32(off8)`, wrapping modulo 2^32 (R93). -/
def State.effAddr (s : State) (a : Reg) (off : Byte) : Word := s.readReg a + sext32 off

/-- The target of a taken branch, `pc +32 sext_32(off8)`, relative to the branch's own address (R100, R101). -/
def State.branchTarget (s : State) (off : Byte) : Word := s.pc + sext32 off

end Sys2Proof.Machine
end

