-- ==== Sys2Proof/Machine/Flags.lean ====
section
/-! DEFINITION. The shared arithmetic with its flag computation (40_arithmetic.md section 1) and the condition of a
branch (42_control.md section 1). -/

namespace Sys2Proof.Machine

/-- The three operations of the ALU (R82). -/
inductive AluOp where
  | add
  | sub
  | xor
deriving DecidableEq, Repr

/-- A signed result that 32 bits cannot hold: outside `-2^31..2^31-1` (R83, R84). -/
def outOfRange (n : Int) : Bool := decide (n < -2 ^ 31 ∨ 2 ^ 31 ≤ n)

/-- `ovf_add`: the true sum is out of range (R83). -/
def ovfAdd (a b : Word) : Bool := outOfRange (a.toInt + b.toInt)

/-- `ovf_sub`: the true difference is out of range (R84). -/
def ovfSub (a b : Word) : Bool := outOfRange (a.toInt - b.toInt)

/-- The result of the operation, wrapped modulo 2^32 (R82, R91). The left operand is the minuend (R87, decision D12). -/
def AluOp.result : AluOp → Word → Word → Word
  | .add, a, b => a + b
  | .sub, a, b => a - b
  | .xor, a, b => a ^^^ b

/-- The overflow flag of the operation; an exclusive-or never overflows (R82, R88). -/
def AluOp.overflow : AluOp → Word → Word → Bool
  | .add, a, b => ovfAdd a b
  | .sub, a, b => ovfSub a b
  | .xor, _, _ => false

/-- The flag byte `{0b00000, v, n, z}` (R25, R82). -/
def flagByte (v n z : Bool) : Byte := 0#5 ++ BitVec.ofBool v ++ BitVec.ofBool n ++ BitVec.ofBool z

/-- `alu(op, a, b)` (R82): the wrapped result and the whole new flag byte, with N and Z taken from the wrapped result
(R85). The old flags play no part. -/
def alu (op : AluOp) (a b : Word) : Word × Byte :=
  let r := op.result a b
  (r, flagByte (op.overflow a b) r.msb (r == 0))

/-- `taken(mask, F)` (R98): the selector, bit 3, equals the OR of the flags that bits 2..0 select. -/
def taken (mask : Mask) (f : Byte) : Bool :=
  let cond := (mask[2] && f[2]) || (mask[1] && f[1]) || (mask[0] && f[0])
  mask[3] == cond

end Sys2Proof.Machine
end

