-- ==== Sys2Proof/Machine/Arithmetic.lean ====
section
/-! DEFINITION. The arithmetic instructions (40_arithmetic.md sections 2 and 3). None raises an exception (R92). -/

namespace Sys2Proof.Machine

/-- The shared body of the five arithmetic instructions: `(res, f) <- alu(op, a, b)`, then `x[t] <- res`, `F <- f` and
`pc <- pc +32 1`. Its operands are values read before anything is written (R9, R92). -/
def State.aluWrite (s : State) (op : AluOp) (t : Reg) (a b : Word) : State :=
  ((s.writeReg t (alu op a b).1).writeFlags (alu op a b).2).advancePc

/-- `add` (R86). -/
def execAdd (t l r : Reg) (s : State) : Host.Outcome State Fault Refusal :=
  .next (s.aluWrite .add t (s.readReg l) (s.readReg r))

/-- `sub`: left minus right (R87). -/
def execSub (t l r : Reg) (s : State) : Host.Outcome State Fault Refusal :=
  .next (s.aluWrite .sub t (s.readReg l) (s.readReg r))

/-- `xor` (R88). -/
def execXor (t l r : Reg) (s : State) : Host.Outcome State Fault Refusal :=
  .next (s.aluWrite .xor t (s.readReg l) (s.readReg r))

/-- `addq`: the right operand is the sign-extended immediate (R89). -/
def execAddq (t l : Reg) (imm : Byte) (s : State) : Host.Outcome State Fault Refusal :=
  .next (s.aluWrite .add t (s.readReg l) (sext32 imm))

/-- `subq`: left minus the sign-extended immediate (R90). -/
def execSubq (t l : Reg) (imm : Byte) (s : State) : Host.Outcome State Fault Refusal :=
  .next (s.aluWrite .sub t (s.readReg l) (sext32 imm))

end Sys2Proof.Machine
end

