-- ==== Sys2Proof/Machine/Control.lean ====
section
/-! DEFINITION. The quick branch and the placeholder (42_control.md sections 2 and 3). Neither raises an exception or
writes the flags, a register or memory (R100, R103). -/

namespace Sys2Proof.Machine

/-- `brq` (R100): no delay slot (R130); a target at or beyond LEN halts the engine after the step (R101). -/
def execBrq (mask : Mask) (off : Byte) (s : State) : Host.Outcome State Fault Refusal :=
  .next (if taken mask s.flags then s.setPc (s.branchTarget off) else s.advancePc)

/-- `Noop` (R103): the program counter advances, and nothing else changes. -/
def execNoop (s : State) : Host.Outcome State Fault Refusal := .next s.advancePc

end Sys2Proof.Machine
end

