-- ==== Sys2Proof/Machine/LoadStore.lean ====
section
/-! DEFINITION. The load and the store (41_memory_access.md). The address is computed and checked before anything is
written, so that a faulting access changes only the status (R97, R108). Neither writes the flags (R26). -/

namespace Sys2Proof.Machine

/-- `ldq` (R94): the address comes from the old `x[a]`, also when `v = a`. -/
def execLdq (v a : Reg) (off : Byte) (s : State) : Host.Outcome State Fault Refusal :=
  match s.memRead (s.effAddr a off) with
  | .ok w => .next (s.writeReg v w).advancePc
  | .error e => .next (s.raise e)

/-- `stq` (R95): the whole cell is replaced by `x[v]`. -/
def execStq (v a : Reg) (off : Byte) (s : State) : Host.Outcome State Fault Refusal :=
  match s.memWrite (s.effAddr a off) (s.readReg v) with
  | .ok t => .next t.advancePc
  | .error e => .next (s.raise e)

end Sys2Proof.Machine
end

