-- ==== Sys2Proof/Machine/Dispatch.lean ====
section
/-! DEFINITION. One arm per instruction value: the engine's dispatch (10_state.md R31). -/

namespace Sys2Proof.Machine

/-- What one instruction does (R31). The run status is `step`'s concern, not an instruction's. -/
def exec (i : Instr) (s : State) : Host.Outcome State Fault Refusal :=
  match i with
  | .add t l r => Sys2Proof.Machine.execAdd t l r s
  | .sub t l r => Sys2Proof.Machine.execSub t l r s
  | .xor t l r => Sys2Proof.Machine.execXor t l r s
  | .addq t l imm => Sys2Proof.Machine.execAddq t l imm s
  | .subq t l imm => Sys2Proof.Machine.execSubq t l imm s
  | .ldq v a off => Sys2Proof.Machine.execLdq v a off s
  | .stq v a off => Sys2Proof.Machine.execStq v a off s
  | .brq mask off => Sys2Proof.Machine.execBrq mask off s
  | .noop => Sys2Proof.Machine.execNoop s

end Sys2Proof.Machine
end

