-- ==== Sys2Proof/Machine/Fetch.lean ====
section
/-! DEFINITION. Fetching an instruction in the two paths (10_state.md R31, R32), the end of a step, and putting an
instruction word where the next step fetches it. -/

namespace Sys2Proof.Machine

/-- What a fetch answers. -/
inductive Fetched where
  /-- An instruction to execute. -/
  | instr (i : Instr)
  /-- A word that decodes to `Illegal` (R32, R107). -/
  | illegal (word : Word)
  /-- No instruction stands at this address: it is at or beyond LEN (R36). -/
  | beyond
deriving DecidableEq, Repr

/-- The decoder's answer for one fetched word (R32). -/
def fetchedWord (w : Word) : Fetched :=
  match decode w with
  | .ok i => .instr i
  | .error _ => .illegal w

/-- The instruction at address `k` (R36). The word path decodes at fetch, one word a step (decision D27). -/
def fetchAt (p : Program) (k : Nat) : Fetched :=
  match p with
  | .values instrs =>
    match instrs[k]? with
    | some i => .instr i
    | none => .beyond
  | .words image =>
    match image[k]? with
    | some w => fetchedWord w
    | none => .beyond

/-- `IMem[u32(pc)]` (R31, R32). -/
def State.fetch (s : State) : Fetched := fetchAt s.imem s.pc.toNat

/-- A step's outcome from its instruction's: the halt check follows the instruction (R31). -/
def finishStep : Host.Outcome State Fault Refusal → Host.Outcome State Fault Refusal
  | .next t => .next t.haltCheck
  | .fault r => .fault r
  | .refused r => .refused r

/-- The word of an instruction value, and the word of zeros for a `Noop`, which has none. -/
def wordOrZero (i : Instr) : Word :=
  match encode i with
  | .ok w => w
  | .error _ => 0

/-- The words of a program. -/
def imageOf : Program → List Word
  | .values instrs => instrs.map wordOrZero
  | .words image => image

/-- The image with `w` at address `k`, filled up with words of zeros where it is shorter. -/
def putWord : List Word → Nat → Word → List Word
  | [], 0, w => [w]
  | [], k + 1, w => 0 :: putWord [] k w
  | _ :: image, 0, w => w :: image
  | v :: image, k + 1, w => v :: putWord image k w

/-- What a caller does who loads a word image whose word at the program counter is `w` and starts the engine: the
program is supplied from outside before a run (R11, R124, R125; log 18). -/
def State.loadWordAtPc (s : State) (w : Word) : State :=
  { s with imem := .words (putWord (imageOf s.imem) s.pc.toNat w), status := .running }

end Sys2Proof.Machine
end

