-- ==== Sys2Proof/Machine/Step.lean ====
section
/-! DEFINITION. One step of the engine (10_state.md R31, R32). -/

namespace Sys2Proof.Machine

/-- One step executes exactly one instruction, completely (R31). Halted and Faulted have no step (R34). In the word
path an illegal word raises IllegalInstruction instead of executing (R32, R107). -/
def step (s : State) : Host.Outcome State Fault Refusal :=
  match s.status with
  | .halted => .fault .halted
  | .faulted e => .fault (.faulted e)
  | .running =>
    match s.fetch with
    | .instr i => finishStep (exec i s)
    | .illegal w => .next (s.raise (.illegalInstruction s.pc w))
    | .beyond => .fault .beyondProgram

/-- `s` with an instruction word stored where `step` fetches its next instruction, and the engine started. -/
def State.withFetchWord (s : State) (nbits w : Nat) : State := s.loadWordAtPc (tableWord nbits w)

end Sys2Proof.Machine
end

