-- ==== Sys2Proof/Machine/Listing.lean ====
section
/-! DEFINITION. The word image and the hex listing of a program (30_encoding.md section 5). -/

namespace Sys2Proof.Machine

/-- The words of a program from index `k` on, or EncodingError at the first `Noop` (R63, R71). -/
def encodeFrom : Nat → List Instr → Except ToolError (List Word)
  | _, [] => .ok []
  | k, i :: rest =>
    match encode i with
    | .error _ => .error (.encodingError k)
    | .ok w =>
      match encodeFrom (k + 1) rest with
      | .ok image => .ok (w :: image)
      | .error e => .error e

/-- The word image of a program (R15, R126). -/
def encodeProgram (instrs : List Instr) : Except ToolError (List Word) := encodeFrom 0 instrs

/-- One hexadecimal digit; A to F are upper case (R70, decision D24). -/
def hexDigit (n : BitVec 4) : Char := Char.ofNat (if n.toNat < 10 then 48 + n.toNat else 55 + n.toNat)

/-- Exactly four hexadecimal digits, leading zeros kept (R69). -/
def hex4 (h : BitVec 16) : List Char :=
  [hexDigit (h.extractLsb' 12 4), hexDigit (h.extractLsb' 8 4), hexDigit (h.extractLsb' 4 4), hexDigit (h.extractLsb' 0 4)]

/-- The listing line of word `w` at index `k` (R69): the index in decimal with no leading zeros (R70), the high half
before the low half, and a line feed that ends the line. -/
def listingLine (k : Nat) (w : Word) : List Char :=
  Nat.toDigits 10 k ++ "=>X\"".toList ++ hex4 (w.extractLsb' 16 16) ++ "_".toList ++ hex4 (w.extractLsb' 0 16)
    ++ "\",\n".toList

/-- The lines of a word image from index `k` on, in address order with no gaps (R69, R70). -/
def listingFrom : Nat → List Word → List Char
  | _, [] => []
  | k, w :: rest => listingLine k w ++ listingFrom (k + 1) rest

/-- The hex listing of a program. It is all or nothing: a `Noop` anywhere gives EncodingError and no listing (R71). -/
def listing (instrs : List Instr) : Except ToolError String :=
  match encodeProgram instrs with
  | .ok image => .ok (String.ofList (listingFrom 0 image))
  | .error e => .error e

end Sys2Proof.Machine
end

