-- ==== Sys2Proof/Machine/Assembler.lean ====
section
/-! DEFINITION. The assembly syntax and the two-pass assembler (30_encoding.md sections 6 and 7). 00_scope.md R5 puts
them outside the engine; they are modelled here as pure functions that `step` does not use. See log 20. -/

namespace Sys2Proof.Machine

/-- One source line is one statement (R72). -/
inductive Statement where
  /-- An arithmetic, quick, memory or raw-jump statement: the instruction it gives. -/
  | instr (i : Instr)
  /-- `<name>:`, a symbol at the current address. -/
  | label (name : List Char)
  /-- `brq-<mask> <name>`, the one pseudo-instruction (R77). -/
  | symJump (mask : Mask) (name : List Char)
  /-- `#<text>`. -/
  | comment
deriving DecidableEq, Repr

/-- Spaces and tabs may appear, or not, around every token (R72). -/
def isBlank (c : Char) : Bool := c == ' ' || c == '\t'

/-- The rest of a line after the blanks before a token. -/
def skipBlanks (cs : List Char) : List Char := cs.dropWhile isBlank

/-- The rest of `cs` after the characters `tok`, if `cs` begins with them. -/
def stripPrefix : List Char → List Char → Option (List Char)
  | [], cs => some cs
  | _ :: _, [] => none
  | t :: tok, c :: cs => if t = c then stripPrefix tok cs else none

/-- The rest of the line after blanks and one fixed token. Mnemonics are lower case (R73). -/
def token (tok : String) (cs : List Char) : Option (List Char) := stripPrefix tok.toList (skipBlanks cs)

/-- The value of a run of decimal digits, most significant first. -/
def decimalValue (ds : List Char) : Nat := ds.foldl (fun n d => 10 * n + (d.toNat - 48)) 0

/-- One or more decimal digits. -/
def digits (cs : List Char) : Option (Nat × List Char) :=
  if (cs.takeWhile Char.isDigit).isEmpty then none
  else some (decimalValue (cs.takeWhile Char.isDigit), cs.dropWhile Char.isDigit)

/-- `r` and a decimal number (R73). -/
def register (cs : List Char) : Option (Nat × List Char) := (token "r" cs).bind digits

/-- An optional `-`, then one or more decimal digits (R73, decision D18). -/
def signedInt (cs : List Char) : Option (Int × List Char) :=
  match token "-" cs with
  | some rest => (digits rest).map fun p => (-(p.1 : Int), p.2)
  | none => (digits (skipBlanks cs)).map fun p => ((p.1 : Int), p.2)

/-- A character that a label name may begin with (R73, decision D20). -/
def isNameStart (c : Char) : Bool := c.isAlpha || c == '_'

/-- A character that a label name may hold (R73, decision D20). -/
def isNameChar (c : Char) : Bool := isNameStart c || c.isDigit

/-- A label name. -/
def labelName (cs : List Char) : Option (List Char × List Char) :=
  match skipBlanks cs with
  | [] => none
  | c :: rest => if isNameStart c then some (c :: rest.takeWhile isNameChar, rest.dropWhile isNameChar) else none

/-- A mask of exactly four binary digits, `i` first, then V, N and Z (R74, decision D17). -/
def maskDigits : List Char → Option (Mask × List Char)
  | a :: b :: c :: d :: rest =>
    if [a, b, c, d].all (fun ch => ch == '0' || ch == '1') then
      some (BitVec.ofBool (a == '1') ++ BitVec.ofBool (b == '1') ++ BitVec.ofBool (c == '1') ++ BitVec.ofBool (d == '1'),
        rest)
    else none
  | _ => none

/-- The whole line must match its form (R72): only blanks may follow. -/
def endOfLine {α : Type} (a : α) (cs : List Char) : Option α := if (skipBlanks cs).isEmpty then some a else none

/-- `r<t> <- r<l>, r<r>` after the mnemonic of an arithmetic statement (R72). -/
def threeRegs (mnemonic : String) (cs : List Char) : Option (Nat × Nat × Nat) :=
  (token mnemonic cs).bind fun c1 => (register c1).bind fun t =>
    (token "<-" t.2).bind fun c2 => (register c2).bind fun l =>
      (token "," l.2).bind fun c3 => (register c3).bind fun r => endOfLine (t.1, l.1, r.1) r.2

/-- `r<t> <arrow> r<l>, <signed-int>` after the mnemonic of a quick or memory statement (R72). -/
def twoRegsInt (mnemonic arrow : String) (cs : List Char) : Option (Nat × Nat × Int) :=
  (token mnemonic cs).bind fun c1 => (register c1).bind fun t =>
    (token arrow t.2).bind fun c2 => (register c2).bind fun l =>
      (token "," l.2).bind fun c3 => (signedInt c3).bind fun v => endOfLine (t.1, l.1, v.1) v.2

/-- In a memory statement the arrow is not an operand: both arrows mean the same (R75). -/
def memForm (mnemonic : String) (cs : List Char) : Option (Nat × Nat × Int) :=
  (twoRegsInt mnemonic "<-" cs).orElse fun _ => twoRegsInt mnemonic "->" cs

/-- `brq-raw-<mask> <signed-int>` (R72, R78). -/
def rawJumpForm (cs : List Char) : Option (Mask × Int) :=
  (token "brq-raw-" cs).bind fun c1 => (maskDigits c1).bind fun m =>
    (signedInt m.2).bind fun v => endOfLine (m.1, v.1) v.2

/-- `brq-<mask> <name>` (R72, R77). -/
def symJumpForm (cs : List Char) : Option (Mask × List Char) :=
  (token "brq-" cs).bind fun c1 => (maskDigits c1).bind fun m =>
    (labelName m.2).bind fun n => endOfLine (m.1, n.1) n.2

/-- `<name>:` (R72). -/
def labelForm (cs : List Char) : Option (List Char) :=
  (labelName cs).bind fun n => (token ":" n.2).bind fun c => endOfLine n.1 c

/-- A register literal, 0 to 255 (R73, decision D19). -/
def toReg (n : Nat) : Except ToolError Reg :=
  if n < 256 then .ok (BitVec.ofNat 8 n) else .error (.rangeError n)

/-- The byte `u8(v)` of a signed literal or offset, -128 to 127, and never a truncated one (R52, R73, R77, decision
D21). -/
def toImm (v : Int) : Except ToolError Byte :=
  if -128 ≤ v ∧ v ≤ 127 then .ok (BitVec.ofInt 8 v) else .error (.rangeError v)

/-- The arithmetic statement of an operation, its three register literals checked. -/
def regStatement (mk : Reg → Reg → Reg → Instr) (p : Nat × Nat × Nat) : Except ToolError Statement :=
  (toReg p.1).bind fun t => (toReg p.2.1).bind fun l => (toReg p.2.2).bind fun r => .ok (.instr (mk t l r))

/-- The quick or memory statement of an operation, its literals checked. -/
def immStatement (mk : Reg → Reg → Byte → Instr) (p : Nat × Nat × Int) : Except ToolError Statement :=
  (toReg p.1).bind fun t => (toReg p.2.1).bind fun l => (toImm p.2.2).bind fun v => .ok (.instr (mk t l v))

/-- The forms of R72, each with what it gives; no line matches two of them. -/
def statementForms (cs : List Char) : List (Option (Except ToolError Statement)) :=
  [ (stripPrefix ['#'] (skipBlanks cs)).map fun _ => .ok .comment,
    (threeRegs "add" cs).map (regStatement .add),
    (threeRegs "sub" cs).map (regStatement .sub),
    (threeRegs "xor" cs).map (regStatement .xor),
    (twoRegsInt "addq" "<-" cs).map (immStatement .addq),
    (twoRegsInt "subq" "<-" cs).map (immStatement .subq),
    (memForm "ldq" cs).map (immStatement .ldq),
    (memForm "stq" cs).map (immStatement .stq),
    (rawJumpForm cs).map fun p => (toImm p.2).bind fun off => .ok (.instr (.brq p.1 off)),
    (symJumpForm cs).map fun p => .ok (.symJump p.1 p.2),
    (labelForm cs).map fun n => .ok (.label n) ]

/-- Parses one line into exactly one statement, or fails: an empty line matches no form (R72, R73, R80). -/
def parseLine (cs : List Char) : Except ToolError Statement :=
  match (statementForms cs).findSome? id with
  | some r => r
  | none => .error (.syntaxError cs)

/-- The statements of a source, one a line, or the error of the first line that has one. -/
def parseLines : List (List Char) → Except ToolError (List Statement)
  | [] => .ok []
  | l :: rest => (parseLine l).bind fun st => (parseLines rest).bind fun sts => .ok (st :: sts)

/-- Pass 1: every label with the address the next instruction would occupy (R76). -/
def labelsFrom : Nat → List Statement → List (List Char × Nat)
  | _, [] => []
  | k, .label n :: rest => (n, k) :: labelsFrom k rest
  | k, .comment :: rest => labelsFrom k rest
  | k, .instr _ :: rest => labelsFrom (k + 1) rest
  | k, .symJump _ _ :: rest => labelsFrom (k + 1) rest

/-- The address of a label; of two definitions of one name the last wins (R81, decision D22). -/
def labelAddr (labels : List (List Char × Nat)) (name : List Char) : Option Nat := labels.reverse.lookup name

/-- The expansion of a symbolic jump at address `k`: `offset = address(name) - k` (R77). -/
def resolveJump (labels : List (List Char × Nat)) (k : Nat) (mask : Mask) (name : List Char) : Except ToolError Instr :=
  match labelAddr labels name with
  | none => .error (.unresolvedLabelError name)
  | some a => (toImm ((a : Int) - k)).bind fun off => .ok (.brq mask off)

/-- Pass 2: the instructions from address `k` on, each symbolic jump resolved (R76, R77). -/
def resolveFrom (labels : List (List Char × Nat)) : Nat → List Statement → Except ToolError (List Instr)
  | _, [] => .ok []
  | k, .label _ :: rest => resolveFrom labels k rest
  | k, .comment :: rest => resolveFrom labels k rest
  | k, .instr i :: rest => (resolveFrom labels (k + 1) rest).bind fun is => .ok (i :: is)
  | k, .symJump m n :: rest =>
    (resolveJump labels k m n).bind fun i => (resolveFrom labels (k + 1) rest).bind fun is => .ok (i :: is)

/-- Removes every trailing `Noop`; one inside the program stays (R79). -/
def trimNoops (instrs : List Instr) : List Instr := (instrs.reverse.dropWhile (· == .noop)).reverse

/-- The assembler's output for a sequence of statements (R76 to R81). -/
def assembleStatements (sts : List Statement) : Except ToolError (List Instr) :=
  (resolveFrom (labelsFrom 0 sts) 0 sts).bind fun is => .ok (trimNoops is)

/-- The assembler: source lines to the instruction sequence, or the error that is fatal for the assembly (R80). -/
def assemble (lines : List String) : Except ToolError (List Instr) :=
  (parseLines (lines.map String.toList)).bind assembleStatements

end Sys2Proof.Machine
end

