-- ==== Sys2Proof/Machine/Launch.lean ====
section
/-! DEFINITION. Reset: the launch of a run (70_reset_and_hazards.md R122, R123). -/

namespace Sys2Proof.Machine

/-- The register file that the caller's seeds give: 0 where the caller seeds nothing (R122, decision D3). Of two seeds
for one register the first counts (log 19). -/
def seedRegs : List (Reg × Word) → Vector Word 256
  | [] => Vector.replicate 256 0
  | c :: seeds => (seedRegs seeds).set c.1.toNat c.2 c.1.isLt

/-- The data memory of `memSize` cells that the caller's seeds give; of two seeds for one cell the first counts, and a
seed for a cell that does not exist has no cell to stand in (R122, log 19). -/
def seedMemory (memSize : Nat) : List (Nat × Word) → Memory
  | [] => []
  | c :: seeds =>
    if c.1 < memSize then writeCell (seedMemory memSize seeds) c.1 c.2 else seedMemory memSize seeds

/-- `launch(IMem, MEM_SIZE, INIT_REGS, INIT_MEM)` (R122). A program with LEN = 0 is Halted at launch (R123). -/
def launch (p : Program) (memSize : Nat) (initRegs : List (Reg × Word)) (initMem : List (Nat × Word)) : State where
  x := seedRegs initRegs
  flags := 0x00
  pc := 0
  dmem := seedMemory memSize initMem
  status := if 0 < p.len then .running else .halted
  imem := p
  memSize := memSize

end Sys2Proof.Machine
end

