-- ==== Sys2Proof/Machine/Run.lean ====
section
/-! DEFINITION. A run under a step budget, and what its caller reads at the end (00_scope.md R11, 10_state.md R33,
70_reset_and_hazards.md R133). -/

namespace Sys2Proof.Machine

/-- How a run under a budget ended. -/
inductive RunResult where
  /-- Successful termination, with the final state (R30). -/
  | halted (final : State)
  /-- Failed termination: the exception with its record, and the final state (R30, R108). -/
  | faulted (e : EngineException) (final : State)
  /-- The budget ran out: the executor's verdict, neither a halt nor a fault of the engine (R133, decision D26). -/
  | notFinished (soFar : State)
  /-- `step` answered no next state of a Running engine: no state of a run does this. -/
  | stuck (atState : State)
deriving DecidableEq, Repr

/-- Steps until the status is no longer Running, at most `budget` of them (R33). -/
def runFor : Nat → State → RunResult
  | budget, s =>
    match s.status with
    | .halted => .halted s
    | .faulted e => .faulted e s
    | .running =>
      match budget with
      | 0 => .notFinished s
      | n + 1 =>
        match step s with
        | .next t => runFor n t
        | .fault _ => .stuck s
        | .refused _ => .stuck s

end Sys2Proof.Machine
end

