-- ==== Sys2Proof/Safety.lean ====
section
/-! DEFINITION. The terms the statements use: what an instruction reads and writes (10_state.md R22), the legal flag
bytes (R28), a truthful fault record (60_exceptions.md R106, R107) and the invariant of the engine's states. -/

namespace Sys2Proof

open Machine

/-- The registers an instruction reads, as the table of R22 lists them. -/
def Instr.regsRead : Instr → List Reg
  | .add _ l r => [l, r]
  | .sub _ l r => [l, r]
  | .xor _ l r => [l, r]
  | .addq _ l _ => [l]
  | .subq _ l _ => [l]
  | .ldq _ a _ => [a]
  | .stq v a _ => [a, v]
  | .brq _ _ => []
  | .noop => []

/-- The registers an instruction writes, as the table of R22 lists them. -/
def Instr.regsWritten : Instr → List Reg
  | .add t _ _ => [t]
  | .sub t _ _ => [t]
  | .xor t _ _ => [t]
  | .addq t _ _ => [t]
  | .subq t _ _ => [t]
  | .ldq v _ _ => [v]
  | .stq _ _ _ => []
  | .brq _ _ => []
  | .noop => []

/-- The five arithmetic instructions, the only ones that write the flags (R26). -/
def Instr.isArithmetic : Instr → Bool
  | .add .. | .sub .. | .xor .. | .addq .. | .subq .. => true
  | .ldq .. | .stq .. | .brq .. | .noop => false

/-- The two instructions that reach data memory (R38). -/
def Instr.reachesMemory : Instr → Bool
  | .ldq .. | .stq .. => true
  | .add .. | .sub .. | .xor .. | .addq .. | .subq .. | .brq .. | .noop => false

/-- The address an instruction accesses data memory at (R93), if it accesses it. -/
def Instr.accessAddr (i : Instr) (s : State) : Option Word :=
  match i with
  | .ldq _ a off => some (s.effAddr a off)
  | .stq _ a off => some (s.effAddr a off)
  | .add .. | .sub .. | .xor .. | .addq .. | .subq .. | .brq .. | .noop => none

/-- The cell an instruction stores to (R95), if it stores. -/
def Instr.storeAddr (i : Instr) (s : State) : Option Word :=
  match i with
  | .stq _ a off => some (s.effAddr a off)
  | .add .. | .sub .. | .xor .. | .addq .. | .subq .. | .ldq .. | .brq .. | .noop => none

namespace Machine

/-- The six values the flag byte can hold (R28). -/
def legalFlags (f : Byte) : Bool := [0x00#8, 0x01, 0x02, 0x04, 0x05, 0x06].contains f

/-- Every listed cell lies in data memory, cells `0..MEM_SIZE-1` (R37). -/
def State.cellsExist (s : State) : Bool := s.dmem.all fun c => decide (c.1 < s.memSize)

/-- The record of an exception tells the truth of the state the engine stopped in (R106, R107, R108): the program
counter still points at the instruction that raised it, which is the access the record names, at the address it
names, out of bounds; or at the illegal word. -/
def State.recordTrue (s : State) : EngineException → Prop
  | .memoryFault p ea .read =>
    p = s.pc ∧ s.memSize ≤ ea.toNat ∧ ∃ v a off, s.fetch = .instr (.ldq v a off) ∧ ea = s.effAddr a off
  | .memoryFault p ea .write =>
    p = s.pc ∧ s.memSize ≤ ea.toNat ∧ ∃ v a off, s.fetch = .instr (.stq v a off) ∧ ea = s.effAddr a off
  | .illegalInstruction p w => p = s.pc ∧ s.fetch = .illegal w

/-- The status agrees with the rest of the state (R30): Running inside the program, Halted outside it, Faulted inside
it with a true record. -/
def State.statusTrue (s : State) : Prop :=
  match s.status with
  | .running => s.pc.toNat < s.imem.len
  | .halted => s.imem.len ≤ s.pc.toNat
  | .faulted e => s.pc.toNat < s.imem.len ∧ s.recordTrue e

/-- The invariant of the engine's states: launch establishes it and every step keeps it. -/
structure State.Inv (s : State) : Prop where
  memCanonical : Memory.wf s.dmem = true
  cellsExist : s.cellsExist = true
  memSizeOk : memSizeOk s.memSize = true
  lenOk : s.imem.lenOk = true
  flagsLegal : legalFlags s.flags = true
  statusTrue : s.statusTrue

/-- A run ended well: Halted, not Faulted (R30). -/
def RunResult.successful : RunResult → Bool
  | .halted _ => true
  | .faulted .. | .notFinished _ | .stuck _ => false

/-- The same state with its program of instruction values replaced by the program's word image (R15). -/
def State.inWordPath (s : State) : State := { s with imem := .words (imageOf s.imem) }

/-- The same result of a run, its state in the word path (R15). -/
def RunResult.inWordPath : RunResult → RunResult
  | .halted s => .halted s.inWordPath
  | .faulted e s => .faulted e s.inWordPath
  | .notFinished s => .notFinished s.inWordPath
  | .stuck s => .stuck s.inWordPath

/-- `wrap32(n)`: the word `w` with `u32(w)` congruent to `n` modulo 2^32 (R8). -/
def wrap32 (n : Int) : Word := BitVec.ofInt 32 n

/-- What a flag byte written by an arithmetic instruction says of its result `r` (R25, R82, R85): V that it overflowed,
N that it is negative, Z that it is zero, and bits 7..3 nothing. -/
def flagsSay (f : Byte) (overflowed : Prop) (r : Word) : Prop :=
  (f[2] = true ↔ overflowed) ∧ (f[1] = true ↔ r.toInt < 0) ∧ (f[0] = true ↔ r = 0) ∧ f.toNat < 8

/-- The frame of an instruction that writes the registers `regs` and the data cells `cells`: every other register and
cell, the status and the parameters of the run are as before. The flags and the program counter are stated apart. -/
def State.onlyWrites (s t : State) (regs : List Reg) (cells : List Nat) : Prop :=
  (∀ k, k ∉ regs → t.readReg k = s.readReg k) ∧ (∀ a, a ∉ cells → t.cell a = s.cell a) ∧
    t.status = s.status ∧ t.imem = s.imem ∧ t.memSize = s.memSize

/-- The instruction stands at the program counter, as a value or as a word that decodes to it (R31, R32). -/
def State.instrAtPc (s : State) (i : Instr) : Prop :=
  (∃ instrs, s.imem = .values instrs ∧ instrs[s.pc.toNat]? = some i) ∨
    ∃ image w, s.imem = .words image ∧ image[s.pc.toNat]? = some w ∧ decode w = .ok i

end Machine

/-- The opcode of an instruction, as the table of R58 lists it; `Noop` has none. -/
def Instr.opcode : Instr → Option Byte
  | .add .. => some 0x00
  | .sub .. => some 0x01
  | .xor .. => some 0x07
  | .addq .. => some 0x10
  | .subq .. => some 0x11
  | .ldq .. => some 0x30
  | .stq .. => some 0x31
  | .brq .. => some 0x51
  | .noop => none

/-- The number of statements among these that produce an instruction (R76). -/
def addressOf (sts : List Machine.Statement) : Nat :=
  (sts.filter fun st => match st with
    | .instr _ | .symJump _ _ => true
    | .label _ | .comment => false).length

end Sys2Proof
end

