-- ==== Sys2Proof/Certificates/Slice0/Obligations.lean ====
section
/-! DEFINITION. The statements for the provers. A docstring that names a decision `D<n>` or a derivation of the spec
says that the statement rests on a choice the spec marks as its own, with the log entry that declares it. -/

open Sys2Proof Sys2Proof.Machine

/-! ### Encoding -/

/-- A word of every format, written out from 30_encoding.md sections 2 and 3, decodes to its instruction. The place of
the mask is the spec's own decision D6 (log 11), the operand order of formats Q and M its derivation (log 17). -/
def Obligations.SpecWordsDecode : Prop :=
  decode 0x00010203 = .ok (.add 1 2 3) ∧ decode 0x01040302 = .ok (.sub 4 3 2) ∧
  decode 0x070A0B0C = .ok (.xor 10 11 12) ∧ decode 0x100100FF = .ok (.addq 1 0 (-1)) ∧
  decode 0x11070680 = .ok (.subq 7 6 (-128)) ∧ decode 0x30060501 = .ok (.ldq 6 5 1) ∧
  decode 0x310001FF = .ok (.stq 0 1 (-1)) ∧ decode 0x51090006 = .ok (.brq 0b1001 6) ∧
  decode 0x00000000 = .ok (.add 0 0 0)

/-- The round trip of R67 in both directions, which the spec derives from its encoder and decoder (log 11, 12, 16, 17):
decoding an encoded well-formed instruction gives it back, for every operand; and encoding what a legal word decodes to
gives the word back. -/
def Obligations.EncodeAndDecodeAreInverse : Prop :=
  (∀ i : Instr, i.wellFormed = true → ∃ w, encode i = .ok w ∧ decode w = .ok i) ∧
  (∀ (w : Word) (i : Instr), decode w = .ok i → i.wellFormed = true ∧ encode i = .ok w)

/-- The opcode byte of a word selects its instruction, by the table of R58; `Noop` has no opcode. -/
def Obligations.OpcodeByteSelectsInstruction : Prop :=
  (∀ (w : Word) (i : Instr), decode w = .ok i → i.opcode = some (w.extractLsb' 24 8)) ∧
  (∀ (i : Instr) (w : Word), encode i = .ok w → i.opcode = some (w.extractLsb' 24 8)) ∧
  Instr.opcode .noop = none

/-- Which words are `Illegal`: exactly those with an opcode outside the table, and the branch words with a set bit in
bits 23..20 or 15..8. The spec's own decisions D7 and D8 (log 12). -/
def Obligations.IllegalWordsAreTheseExactly : Prop :=
  ∀ w : Word, (∃ e, decode w = .error e) ↔
    ((w.extractLsb' 24 8 : Byte) ∉ [0x00, 0x01, 0x07, 0x10, 0x11, 0x30, 0x31, 0x51]) ∨
      ((w.extractLsb' 24 8 : Byte) = 0x51 ∧
        ((w.extractLsb' 20 4 : BitVec 4) ≠ 0 ∨ (w.extractLsb' 8 8 : Byte) ≠ 0))

/-- The placeholder has no word and no word decodes to it. The spec's own decision D9 (log 16). -/
def Obligations.NoWordForNoop : Prop :=
  (∀ w, encode .noop ≠ .ok w) ∧ ∀ w, decode w ≠ .ok .noop

/-- The decoder accepts 7 x 2^24 + 4096 = 117,444,608 of the 2^32 words, the count the spec derives from decisions D7
and D8 (log 12). -/
def Obligations.LegalWordCount : Prop :=
  ((Finset.range (2 ^ 32)).filter fun n => (decode (BitVec.ofNat 32 n)).isOk = true).card = 117444608

/-- A signed value in range is stored as its two's-complement byte (R52), which the encoder puts in bits 7..0. -/
def Obligations.SignedFieldStoredAsTwosComplement : Prop :=
  (∀ v : Int, -128 ≤ v → v ≤ 127 →
    ∃ b, toImm v = .ok b ∧ (b.toNat : Int) = (if 0 ≤ v then v else v + 256) ∧ b.toInt = v) ∧
  toImm (-1) = .ok 0xFF ∧ toImm (-128) = .ok 0x80 ∧
  ∀ (p q : Reg) (m : Mask) (b : Byte) (w : Word),
    ∀ i ∈ [Instr.addq p q b, .subq p q b, .ldq p q b, .stq p q b, .brq m b], encode i = .ok w →
      (w.extractLsb' 0 8 : Byte) = b

/-! ### The step -/

/-- A running engine executes the instruction at its program counter, given as a value or as a word that decodes to
it, and nothing more but the halt check: still Running with the program counter at or beyond LEN, it is Halted. One
instruction a step is the spec's own decision D16 (log 22). -/
def Obligations.StepRunsDecodedInstruction : Prop :=
  ∀ (s : State) (i : Instr), s.status = .running → s.instrAtPc i →
    (∀ t, exec i s = .next t →
      step s = .next (if t.status = .running ∧ s.imem.len ≤ t.pc.toNat then { t with status := .halted } else t)) ∧
    (∀ r, exec i s = .fault r → step s = .fault r) ∧ (∀ r, exec i s = .refused r → step s = .refused r)

/-- A fetched illegal word raises IllegalInstruction with its address and the word; the state is otherwise unchanged.
The spec's own decisions D7, D10 and D27 (log 12, 15). -/
def Obligations.IllegalWordFaultsAtFetch : Prop :=
  ∀ (s : State) (image : List Word) (w : Word) (e : Illegal), s.status = .running → s.imem = .words image →
    image[s.pc.toNat]? = some w → decode w = .error e →
    step s = .next { s with status := .faulted (.illegalInstruction s.pc w) }

/-- Halted and Faulted are absorbing (R34): no step, whatever the rest of the state; a run from there is over at once,
and the state the caller reads is the one it stopped in. That the model then answers its faults `halted` and `faulted`
is its own form (log 7). -/
def Obligations.StoppedEngineStaysStopped : Prop :=
  ∀ s : State,
    (s.status = .halted → (∀ t, step s ≠ .next t) ∧ ∀ k, runFor k s = .halted s) ∧
    ∀ e, s.status = .faulted e → (∀ t, step s ≠ .next t) ∧ ∀ k, runFor k s = .faulted e s

/-- In every state of the invariant the engine steps exactly when it is Running: no instruction stops the model. The
status is the spec's own decision D10 (log 7, 10). -/
def Obligations.RunningEngineAlwaysSteps : Prop :=
  ∀ s : State, s.Inv → ((∃ t, step s = .next t) ↔ s.status = .running)

/-- Every instruction completes or takes its exception: `exec` never answers a fault or a refusal. The absence of
undefined instructions rests on the spec's own decisions (log 8). -/
def Obligations.ExecAlwaysAnswersNext : Prop :=
  ∀ (i : Instr) (s : State), ∃ t, exec i s = .next t ∧
    (t.status = s.status ∨ ∃ ea acc, t = s.raise (.memoryFault s.pc ea acc))

/-- Instruction memory holds one instruction value or one word at each address 0..LEN-1 and is fixed: no step changes
it, no fetch happens at or beyond LEN, and an engine whose program counter is there after a step is Halted (R36, R31).
That MEM_SIZE (R37) is a field which no step changes is the model's choice (log 1), and so is that a Running state at or
beyond LEN, which no run reaches, has no step (log 10). -/
def Obligations.ProgramNeverChanges : Prop :=
  (∀ s t : State, step s = .next t → t.imem = s.imem ∧ t.memSize = s.memSize ∧ s.pc.toNat < s.imem.len ∧
    (t.imem.len ≤ t.pc.toNat → t.status = .halted)) ∧
  (∀ (s : State) (instrs : List Instr), s.imem = .values instrs →
    ∀ i, s.fetch = .instr i ↔ instrs[s.pc.toNat]? = some i) ∧
  (∀ (s : State) (image : List Word), s.imem = .words image →
    ((∃ i, s.fetch = .instr i) ∨ (∃ w, s.fetch = .illegal w) ↔ ∃ w, image[s.pc.toNat]? = some w)) ∧
  ∀ s : State, s.fetch = .beyond ↔ s.imem.len ≤ s.pc.toNat

/-- Only a taken branch leaves program order: an instruction advances the program counter by one, or is a taken branch
and adds its sign-extended offset, or raised an exception and left it. The width is the spec's own decision D1
(log 6). -/
def Obligations.OnlyTakenBranchesJump : Prop :=
  ∀ (i : Instr) (s t : State), exec i s = .next t →
    t.pc = s.pc + 1 ∨ (∃ mask off, i = .brq mask off ∧ taken mask s.flags = true ∧
      t.pc = wrap32 (s.pc.toNat + off.toInt)) ∨
    (∃ e, t = { s with status := .faulted e } ∧ i.reachesMemory = true)

/-! ### Invariants -/

/-- The invariant holds at State.reset, the launch of the empty program with the model's MEM_SIZE (log 2, 3). -/
def Obligations.ResetMeetsInvariant : Prop := State.reset.Inv

/-- Launch establishes the invariant, for every program of an admitted length, every admitted MEM_SIZE and all launch
contents. The launch values are the spec's own decisions D3 to D5 (log 4, 5, 19). -/
def Obligations.LaunchMeetsInvariant : Prop :=
  ∀ (p : Program) (n : Nat) (regs : List (Reg × Word)) (mem : List (Nat × Word)),
    p.lenOk = true → memSizeOk n = true → (launch p n regs mem).Inv

/-- Every step keeps the invariant: data memory canonical and inside MEM_SIZE, MEM_SIZE and LEN admitted, the flag byte
one of its six values, the status in agreement with the program counter, and the record of a fault true of the state
the engine stopped in. -/
def Obligations.StepKeepsInvariant : Prop :=
  ∀ s t : State, s.Inv → step s = .next t → t.Inv

/-- The flag byte only ever holds one of its six values: 0 at launch, and kept by every step, whatever the rest of the
state. The spec derives R28; F = 0 at launch is its decision D4 (log 5). -/
def Obligations.FlagByteHoldsSixValues : Prop :=
  (∀ p n regs mem, legalFlags (launch p n regs mem).flags = true) ∧
  ∀ s t : State, legalFlags s.flags = true → step s = .next t → legalFlags t.flags = true

/-- A run from a state of the invariant ends Halted or Faulted or runs out of its budget, and its last state meets the
invariant: it never sticks. The step budget is the spec's own decision D26 (log 22). -/
def Obligations.RunEndsInAStateOfTheInvariant : Prop :=
  ∀ s : State, s.Inv → ∀ k,
    (∃ t, runFor k s = .halted t ∧ t.Inv ∧ t.status = .halted) ∨
    (∃ e t, runFor k s = .faulted e t ∧ t.Inv ∧ t.status = .faulted e) ∨
    (∃ t, runFor k s = .notFinished t ∧ t.Inv ∧ t.status = .running)

/-! ### Launch -/

/-- The launch state: what each register, the flags, the program counter, each cell and the status hold. The values are
the spec's own decisions D3, D4 and D5 (log 4, 5); how repeated seeds combine is the model's choice (log 19). -/
def Obligations.LaunchState : Prop :=
  ∀ (p : Program) (n : Nat) (regs : List (Reg × Word)) (mem : List (Nat × Word)),
    (∀ k, (launch p n regs mem).readReg k = (regs.lookup k).getD 0) ∧
    (launch p n regs mem).flags = 0 ∧ (launch p n regs mem).pc = 0 ∧
    (∀ a, (launch p n regs mem).cell a = if a < n then (mem.lookup a).getD 0 else 0) ∧
    ((launch p n regs mem).status = if 0 < p.len then .running else .halted) ∧
    (launch p n regs mem).imem = p ∧ (launch p n regs mem).memSize = n

/-- State.reset is the launch of the empty program with nothing seeded and MEM_SIZE = 16: the model's choice (log 2,
log 3) of the arguments that the spec leaves to the caller. -/
def Obligations.ResetIsLaunchOfEmptyProgram : Prop :=
  State.reset = launch (.values []) 16 [] []

/-- Halting is not an exception (R110): after a step the engine is Halted exactly when it raised nothing and the
program counter is at or beyond LEN; an exception is never the fault of a fetch beyond the program; and with LEN = 0
the engine is Halted at launch. -/
def Obligations.HaltingIsNotAnException : Prop :=
  (∀ s t : State, step s = .next t →
    (t.status = .halted ↔ (∀ e, t.status ≠ .faulted e) ∧ t.imem.len ≤ t.pc.toNat) ∧
    ∀ e, t.status = .faulted e → t.pc.toNat < t.imem.len) ∧
  ∀ (p : Program) (n : Nat) (regs : List (Reg × Word)) (mem : List (Nat × Word)), p.len = 0 →
    (launch p n regs mem).status = .halted

/-! ### Exceptions -/

/-- A step that ends Faulted changed the status alone, and the record names the instruction or word that raised it:
there are no other exceptions. Records and preciseness are the spec's own decisions D7 and D10 (log 12, 15). -/
def Obligations.FaultsArePreciseAndTruthful : Prop :=
  ∀ (s t : State) (e : EngineException), step s = .next t → t.status = .faulted e →
    t = { s with status := .faulted e } ∧ s.recordTrue e

/-- A load or store outside data memory raises MemoryFault with its address, its effective address and its access, and
changes nothing but the status; it does so exactly when the address is at or above MEM_SIZE. The spec's own decision
D10 (log 15). -/
def Obligations.OutOfRangeAccessFaults : Prop :=
  ∀ (s : State) (v a : Reg) (off : Byte),
    (s.memSize ≤ (s.effAddr a off).toNat ↔
      exec (.ldq v a off) s = .next { s with status := .faulted (.memoryFault s.pc (s.effAddr a off) .read) }) ∧
    (s.memSize ≤ (s.effAddr a off).toNat ↔
      exec (.stq v a off) s = .next { s with status := .faulted (.memoryFault s.pc (s.effAddr a off) .write) })

/-! ### Arithmetic -/

/-- The shared function `alu` and the flag byte it returns (R82 to R85), the operands each arithmetic instruction gives
it (R86 to R90), and that such an instruction replaces the whole flag byte with no regard to the old one (R26). That
`sub` and `subq` compute left minus right is the spec's own decision D12 (log 13). -/
def Obligations.AluAsSpecified : Prop :=
  (∀ (op : AluOp) (a b : Word),
    (alu op a b).1 = (match op with
      | .add => wrap32 (a.toNat + b.toNat)
      | .sub => wrap32 ((a.toNat : Int) - b.toNat)
      | .xor => a ^^^ b) ∧
    ((alu op a b).2.toNat =
      4 * (match op with
        | .add => if a.toInt + b.toInt < -2 ^ 31 ∨ 2 ^ 31 ≤ a.toInt + b.toInt then 1 else 0
        | .sub => if a.toInt - b.toInt < -2 ^ 31 ∨ 2 ^ 31 ≤ a.toInt - b.toInt then 1 else 0
        | .xor => 0) +
      2 * ((alu op a b).1.toNat / 2 ^ 31) + (if (alu op a b).1 = 0 then 1 else 0))) ∧
  (∀ (t l r : Reg) (b : Byte) (s : State), ∀ i ∈ [(Instr.add t l r, AluOp.add, s.readReg r),
      (.sub t l r, .sub, s.readReg r), (.xor t l r, .xor, s.readReg r), (.addq t l b, .add, sext32 b),
      (.subq t l b, .sub, sext32 b)],
    ∃ u, exec i.1 s = .next u ∧ u.readReg t = (alu i.2.1 (s.readReg l) i.2.2).1 ∧
      u.flags = (alu i.2.1 (s.readReg l) i.2.2).2) ∧
  (∀ (i : Instr) (s : State) (f : Byte), i.isArithmetic = true → exec i (s.writeFlags f) = exec i s)

/-- Overflow in bits: the sum overflows exactly when the operands have one sign and the result the other, the
difference exactly when the operands differ in sign and the result differs from the left one. The spec derives the bit
forms from the range forms (R83, R84). -/
def Obligations.OverflowInBits : Prop :=
  (∀ a b : Word, ovfAdd a b = true ↔ a[31] = b[31] ∧ (a + b)[31] ≠ a[31]) ∧
  ∀ a b : Word, ovfSub a b = true ↔ a[31] ≠ b[31] ∧ (a - b)[31] ≠ a[31]

/-- Z and N come from the wrapped result, overflow or not, and are never both 1 (R85). -/
def Obligations.ZeroAndNegativeFromWrappedResult : Prop :=
  (∀ (op : AluOp) (a b : Word),
    ((alu op a b).2[0] = true ↔ (alu op a b).1 = 0) ∧
    ((alu op a b).2[1] = true ↔ (alu op a b).1[31] = true) ∧
    ((alu op a b).2[1] = true ↔ (alu op a b).1.toInt < 0) ∧
    ¬ ((alu op a b).2[0] = true ∧ (alu op a b).2[1] = true)) ∧
  alu .add 0x7FFFFFFF 1 = (0x80000000, 0x06)

/-- `add` completes in every state: the wrapped sum, the flags, the program counter, and nothing else. -/
def Obligations.AddResult : Prop :=
  ∀ (t l r : Reg) (s : State), ∃ u, exec (.add t l r) s = .next u ∧
    u.readReg t = wrap32 ((s.readReg l).toInt + (s.readReg r).toInt) ∧
    flagsSay u.flags (¬ (-2 ^ 31 ≤ (s.readReg l).toInt + (s.readReg r).toInt ∧
      (s.readReg l).toInt + (s.readReg r).toInt ≤ 2 ^ 31 - 1)) (u.readReg t) ∧
    u.pc = s.pc + 1 ∧ s.onlyWrites u [t] []

/-- `sub` completes in every state: the wrapped difference, left minus right, which is the spec's own decision D12
(log 13), the flags, the program counter, and nothing else. -/
def Obligations.SubResult : Prop :=
  ∀ (t l r : Reg) (s : State), ∃ u, exec (.sub t l r) s = .next u ∧
    u.readReg t = wrap32 ((s.readReg l).toInt - (s.readReg r).toInt) ∧
    flagsSay u.flags (¬ (-2 ^ 31 ≤ (s.readReg l).toInt - (s.readReg r).toInt ∧
      (s.readReg l).toInt - (s.readReg r).toInt ≤ 2 ^ 31 - 1)) (u.readReg t) ∧
    u.pc = s.pc + 1 ∧ s.onlyWrites u [t] []

/-- `xor` completes in every state: each bit of the result, V never set, and nothing else. -/
def Obligations.XorResult : Prop :=
  ∀ (t l r : Reg) (s : State), ∃ u, exec (.xor t l r) s = .next u ∧
    (∀ k, (u.readReg t).getLsbD k = ((s.readReg l).getLsbD k != (s.readReg r).getLsbD k)) ∧
    flagsSay u.flags False (u.readReg t) ∧ u.pc = s.pc + 1 ∧ s.onlyWrites u [t] []

/-- `addq` completes in every state, its right operand the signed value of the immediate byte. -/
def Obligations.AddqResult : Prop :=
  ∀ (t l : Reg) (imm : Byte) (s : State), ∃ u, exec (.addq t l imm) s = .next u ∧
    u.readReg t = wrap32 ((s.readReg l).toInt + imm.toInt) ∧
    flagsSay u.flags (¬ (-2 ^ 31 ≤ (s.readReg l).toInt + imm.toInt ∧
      (s.readReg l).toInt + imm.toInt ≤ 2 ^ 31 - 1)) (u.readReg t) ∧
    u.pc = s.pc + 1 ∧ s.onlyWrites u [t] []

/-- `subq` completes in every state: left minus the signed value of the immediate byte, the order being the spec's own
decision D12 (log 13). -/
def Obligations.SubqResult : Prop :=
  ∀ (t l : Reg) (imm : Byte) (s : State), ∃ u, exec (.subq t l imm) s = .next u ∧
    u.readReg t = wrap32 ((s.readReg l).toInt - imm.toInt) ∧
    flagsSay u.flags (¬ (-2 ^ 31 ≤ (s.readReg l).toInt - imm.toInt ∧
      (s.readReg l).toInt - imm.toInt ≤ 2 ^ 31 - 1)) (u.readReg t) ∧
    u.pc = s.pc + 1 ∧ s.onlyWrites u [t] []

/-! ### Loads and stores -/

/-- The effective address is the wrapped sum of the register and the signed displacement, read as unsigned (R93). -/
def Obligations.EffectiveAddressWraps : Prop :=
  ∀ (s : State) (a : Reg) (off : Byte),
    ((s.effAddr a off).toNat : Int) = ((s.readReg a).toNat + off.toInt) % 2 ^ 32

/-- `ldq` inside data memory completes: the destination holds the whole cell at the effective address of the old
registers, the flags stay, and nothing else changes. Flags unchanged is the spec's own decision D11 (log 14). -/
def Obligations.LdqResult : Prop :=
  ∀ (v a : Reg) (off : Byte) (s : State), (s.effAddr a off).toNat < s.memSize →
    ∃ u, exec (.ldq v a off) s = .next u ∧ u.readReg v = s.cell (s.effAddr a off).toNat ∧
      u.flags = s.flags ∧ u.pc = s.pc + 1 ∧ s.onlyWrites u [v] []

/-- `stq` inside data memory completes: the cell at the effective address holds the register, the flags stay, and
nothing else changes. Flags unchanged is the spec's own decision D11 (log 14). -/
def Obligations.StqResult : Prop :=
  ∀ (v a : Reg) (off : Byte) (s : State), (s.effAddr a off).toNat < s.memSize →
    ∃ u, exec (.stq v a off) s = .next u ∧ u.cell (s.effAddr a off).toNat = s.readReg v ∧
      u.flags = s.flags ∧ u.pc = s.pc + 1 ∧ s.onlyWrites u [] [(s.effAddr a off).toNat]

/-- A load after a store reads the stored word if it has the same effective address, and what stood there before the
store otherwise. The spec derives R45 and R128. -/
def Obligations.LoadAfterStore : Prop :=
  ∀ (v a v' a' : Reg) (off off' : Byte) (s t u : State), (s.effAddr a off).toNat < s.memSize →
    (t.effAddr a' off').toNat < s.memSize → exec (.stq v a off) s = .next t → exec (.ldq v' a' off') t = .next u →
    u.readReg v' = if t.effAddr a' off' = s.effAddr a off then s.readReg v else s.cell (t.effAddr a' off').toNat

/-- The memory primitives: inside data memory a write succeeds, a read then gives the written word and every other
address reads as before; at or above MEM_SIZE both raise MemoryFault. The record is the spec's own decision D10
(log 15). -/
def Obligations.MemoryPrimitives : Prop :=
  ∀ (s : State) (a v : Word),
    (a.toNat < s.memSize → ∃ t, s.memWrite a v = .ok t ∧ t.memRead a = .ok v ∧
      ∀ b, b ≠ a → t.memRead b = s.memRead b) ∧
    (s.memSize ≤ a.toNat → s.memRead a = .error (.memoryFault s.pc a .read) ∧
      s.memWrite a v = .error (.memoryFault s.pc a .write))

/-- Only `ldq` and `stq` reach data memory (R38): any other instruction leaves it and does not depend on it; a load
copies memory to a register and leaves memory, a store copies a register to memory and leaves the registers. -/
def Obligations.OnlyLoadAndStoreReachMemory : Prop :=
  (∀ (i : Instr) (s t : State) (m : Memory), i.reachesMemory = false → exec i s = .next t →
    t.dmem = s.dmem ∧ exec i { s with dmem := m } = .next { t with dmem := m }) ∧
  (∀ (v a : Reg) (off : Byte) (s t : State), exec (.ldq v a off) s = .next t → t.dmem = s.dmem ∧
    ((s.effAddr a off).toNat < s.memSize → t.readReg v = s.cell (s.effAddr a off).toNat)) ∧
  ∀ (v a : Reg) (off : Byte) (s t : State), exec (.stq v a off) s = .next t → t.x = s.x ∧
    ((s.effAddr a off).toNat < s.memSize → t.cell (s.effAddr a off).toNat = s.readReg v)

/-- The memory frame of every instruction: a cell that is not at the instruction's computed store address reads as
before, and an instruction that stores nothing changes no cell. A step keeps the same frame. -/
def Obligations.OnlyTheStoredCellChanges : Prop :=
  (∀ (i : Instr) (s t : State), exec i s = .next t →
    ∀ c : Nat, (∀ ea, i.storeAddr s = some ea → c ≠ ea.toNat) → t.cell c = s.cell c) ∧
  ∀ (i : Instr) (s t : State), s.instrAtPc i → step s = .next t →
    ∀ c : Nat, (∀ ea, i.storeAddr s = some ea → c ≠ ea.toNat) → t.cell c = s.cell c

/-- Equal memories are equal data: two canonical memories that read alike in every cell are the same list. The
canonical list is the model's own form of data memory (log 9). -/
def Obligations.CanonicalMemoryIsUnique : Prop :=
  ∀ m m' : Memory, Memory.wf m = true → Memory.wf m' = true → (∀ a, readCell m a = readCell m' a) → m = m'

/-! ### Registers and flags -/

/-- The register table (R22): an instruction changes no register but the one the table says it writes; and a register
the table does not list as read influences nothing else: not the flags, the program counter, memory or the status, nor
any other register, nor the destination when the instruction completes. -/
def Obligations.RegisterAccessTable : Prop :=
  (∀ (i : Instr) (s t : State), exec i s = .next t → ∀ k, k ∉ i.regsWritten → t.readReg k = s.readReg k) ∧
  ∀ (i : Instr) (s t : State) (k : Reg) (v : Word), exec i s = .next t → k ∉ i.regsRead →
    ∃ u, exec i (s.writeReg k v) = .next u ∧ u.flags = t.flags ∧ u.pc = t.pc ∧ u.dmem = t.dmem ∧
      u.status = t.status ∧ (∀ j, j ≠ k → u.readReg j = t.readReg j) ∧
      (k ∈ i.regsWritten → (∀ ea, i.accessAddr s = some ea → ea.toNat < s.memSize) → u.readReg k = t.readReg k)

/-- Only the arithmetic instructions write the flags; every other one leaves the whole byte. For loads, stores and
branches this is the spec's own decision D11 (log 14). A whole step writes them no more. -/
def Obligations.OnlyArithmeticWritesFlags : Prop :=
  (∀ (i : Instr) (s t : State), i.isArithmetic = false → exec i s = .next t → t.flags = s.flags) ∧
  ∀ (i : Instr) (s t : State), s.instrAtPc i → i.isArithmetic = false → step s = .next t → t.flags = s.flags

/-- Only `brq` reads the flags (R27): any other instruction does the same with any flag byte, apart from the byte it
leaves; and `brq` reads bits 2..0 alone. That `ldq`, `stq` and `brq` leave the flag byte they found is the spec's own
decision D11 (log 14). -/
def Obligations.OnlyBranchesReadFlags : Prop :=
  (∀ (i : Instr) (s t : State) (f : Byte), (∀ mask off, i ≠ .brq mask off) → exec i s = .next t →
    ∃ u, exec i (s.writeFlags f) = .next u ∧ u.x = t.x ∧ u.pc = t.pc ∧ u.dmem = t.dmem ∧ u.status = t.status ∧
      u.flags = (if i.isArithmetic then t.flags else f)) ∧
  ∀ (mask : Mask) (off : Byte) (s t : State) (f : Byte), f[2] = s.flags[2] → f[1] = s.flags[1] → f[0] = s.flags[0] →
    exec (.brq mask off) s = .next t → exec (.brq mask off) (s.writeFlags f) = .next (t.writeFlags f)

/-! ### Control -/

/-- The condition (R98): with selector 1 the branch is taken when any selected flag is set, with selector 0 when none
is; check-mask bit k meets flag bit k. Taken, it goes to the target, untaken to the next instruction, and nothing else
changes (R100, R101). The 32-bit wrap of the target is the spec's own decision D1 (log 6), the unchanged flags are its
decision D11 (log 14). -/
def Obligations.BranchCondition : Prop :=
  ∀ (mask : Mask) (off : Byte) (s : State),
    (taken mask s.flags = true ↔
      (mask[3] = true ↔ ∃ k : Fin 3, mask[k.val]'(by omega) = true ∧ s.flags[k.val]'(by omega) = true)) ∧
    (taken mask s.flags = true → exec (.brq mask off) s = .next { s with pc := wrap32 (s.pc.toNat + off.toInt) }) ∧
    (taken mask s.flags = false → exec (.brq mask off) s = .next { s with pc := wrap32 (s.pc.toNat + 1) })

/-- `brq` completes in every state: the target or the next address, and nothing else changes. -/
def Obligations.BrqResult : Prop :=
  ∀ (mask : Mask) (off : Byte) (s : State), ∃ u, exec (.brq mask off) s = .next u ∧
    (u.pc.toNat : Int) = (s.pc.toNat + (if taken mask s.flags = true then off.toInt else 1)) % 2 ^ 32 ∧
    u.flags = s.flags ∧ s.onlyWrites u [] []

/-- `Noop` completes in every state: the program counter advances and nothing else changes (R103). -/
def Obligations.NoopResult : Prop :=
  ∀ s : State, ∃ u, exec .noop s = .next u ∧ u.pc = s.pc + 1 ∧ u.flags = s.flags ∧ u.dmem = s.dmem ∧
    s.onlyWrites u [] []

/-- A taken branch below address 0 wraps past the end of every admitted program and halts the engine; it does not
fault. The 32-bit wrap and the bound on LEN are the spec's own decision D1 (log 6). -/
def Obligations.BranchBelowZeroHalts : Prop :=
  ∀ (s : State) (mask : Mask) (off : Byte), s.imem.lenOk = true → s.status = .running →
    s.instrAtPc (.brq mask off) → taken mask s.flags = true → (s.pc.toNat : Int) + off.toInt < 0 →
    ∃ t, step s = .next t ∧ t.status = .halted ∧ (t.pc.toNat : Int) = 2 ^ 32 + s.pc.toNat + off.toInt

/-- A taken branch with offset 0 loops for ever: every run of it, however long, is not finished and has changed
nothing. Conflict C3 is resolved so; the budget's verdict is the spec's own decision D26 (log 22). -/
def Obligations.BranchToSelfNeverEnds : Prop :=
  ∀ (s : State) (mask : Mask), s.status = .running → s.instrAtPc (.brq mask 0) → taken mask s.flags = true →
    step s = .next s ∧ ∀ k, runFor k s = .notFinished s

/-! ### The two paths -/

/-- The two paths of the engine agree: a program of instruction values with no `Noop`, run as its word image, ends as
it does as values, for every budget and from every state. The spec derives R15 from the round trip (log 16). -/
def Obligations.WordPathAgreesWithValuePath : Prop :=
  ∀ s : State, s.imem.hasWordImage = true → ∀ k, runFor k s.inWordPath = (runFor k s).inWordPath

/-! ### The listing and the assembler -/

/-- The listing is all or nothing: it fails exactly when the program holds a `Noop`, at the index of the first one. The
spec's own decision D25 (log 16). -/
def Obligations.ListingFailsExactlyAtNoop : Prop :=
  (∀ p : List Instr, (∃ text, listing p = .ok text) ↔ .noop ∉ p) ∧
  ∀ (p : List Instr) (e : ToolError), listing p = .error e →
    ∃ k, e = .encodingError k ∧ p[k]? = some .noop ∧ ∀ j, j < k → p[j]? ≠ some .noop

/-- Two programs with the same listing are the same program: the listing drops no bit of any instruction. The upper
case of its digits is the spec's own decision D24 (log 21). -/
def Obligations.ListingDeterminesProgram : Prop :=
  ∀ (p q : List Instr) (text : String), listing p = .ok text → listing q = .ok text → p = q

/-- Trimming removes exactly the trailing placeholders; one inside the program stays. Conflict C1 is resolved so
(log 16, 20). -/
def Obligations.TrimRemovesTrailingNoopsOnly : Prop :=
  ∀ is : List Instr, noTrailingNoop (trimNoops is) = true ∧ ∃ n, is = trimNoops is ++ List.replicate n .noop

/-- Of several definitions of one label the last wins, and a label names the address of the next instruction. The
spec's own decision D22 (log 20). -/
def Obligations.LastLabelNamesNextAddress : Prop :=
  ∀ (before after : List Statement) (name : List Char), .label name ∉ after →
    labelAddr (labelsFrom 0 (before ++ .label name :: after)) name = some (addressOf before)

/-- A resolved symbolic jump reaches its label: its offset is the label's address minus its own, never a truncated one,
and taken at its own address it sets the program counter to the label's address. RangeError in place of truncation is
the spec's own decision D21 (log 20). -/
def Obligations.SymbolicJumpReachesItsLabel : Prop :=
  ∀ (labels : List (List Char × Nat)) (k : Nat) (mask : Mask) (name : List Char),
    (∀ i, resolveJump labels k mask name = .ok i →
      ∃ a off, labelAddr labels name = some a ∧ i = .brq mask off ∧ off.toInt = (a : Int) - k ∧
        ∀ s : State, s.pc = BitVec.ofNat 32 k → taken mask s.flags = true →
          ∃ t, exec i s = .next t ∧ t.pc = BitVec.ofNat 32 a) ∧
    (labelAddr labels name = none → resolveJump labels k mask name = .error (.unresolvedLabelError name)) ∧
    ∀ a, labelAddr labels name = some a → ((a : Int) - k < -128 ∨ 127 < (a : Int) - k) →
      resolveJump labels k mask name = .error (.rangeError ((a : Int) - k))
end

