-- ==== Sys2Proof/Laws/Encoding.lean ====
section
/-! SUPPORT. The fields of a packed word: what each extractor reads back. -/

namespace Sys2Proof

variable (b3 b2 b1 b0 : Byte)

@[simp] theorem opcodeOf_packBytes : opcodeOf (packBytes b3 b2 b1 b0) = b3 := by
  ext k hk
  simp only [opcodeOf, packBytes]
  grind
@[simp] theorem op1Of_packBytes : op1Of (packBytes b3 b2 b1 b0) = b2 := by
  ext k hk
  simp only [op1Of, packBytes]
  grind
@[simp] theorem op2Of_packBytes : op2Of (packBytes b3 b2 b1 b0) = b1 := by
  ext k hk
  simp only [op2Of, packBytes]
  grind
@[simp] theorem op3Of_packBytes : op3Of (packBytes b3 b2 b1 b0) = b0 := by
  ext k hk
  simp only [op3Of, packBytes]
  grind

end Sys2Proof
end

