-- ==== Sys2Proof/Laws/Flags.lean ====
section
/-! SUPPORT. The bits of a flag byte that `flagByte` builds, and that it is one of the legal ones. -/

namespace Sys2Proof.Machine

@[simp] theorem flagByte_v (v n z : Bool) : (flagByte v n z)[2] = v := by cases v <;> cases n <;> cases z <;> rfl
@[simp] theorem flagByte_n (v n z : Bool) : (flagByte v n z)[1] = n := by cases v <;> cases n <;> cases z <;> rfl
@[simp] theorem flagByte_z (v n z : Bool) : (flagByte v n z)[0] = z := by cases v <;> cases n <;> cases z <;> rfl

/-- Bits 7..3 of a computed flag byte are 0 (R82). -/
theorem flagByte_lt (v n z : Bool) : (flagByte v n z).toNat < 8 := by cases v <;> cases n <;> cases z <;> decide

@[simp] theorem alu_result (op : AluOp) (a b : Word) : (alu op a b).1 = op.result a b := rfl

theorem alu_flags (op : AluOp) (a b : Word) :
    (alu op a b).2 = flagByte (op.overflow a b) (op.result a b).msb (op.result a b == 0) := rfl

/-- A 32-bit result is outside the signed range exactly when it is below -2^31 or at least 2^31 (R83, R84). -/
theorem outOfRange_iff (n : Int) : outOfRange n = true ↔ n < -2 ^ 31 ∨ 2 ^ 31 ≤ n := by simp [outOfRange]

end Sys2Proof.Machine
end

