-- ==== Sys2Proof/Laws/State.lean ====
section
/-! SUPPORT. One lemma per field per update of the state, so that no later proof unfolds a record update; and what a
register reads after a register is written. -/

namespace Sys2Proof.Machine

variable (s : State)

@[simp] theorem writeReg_flags (i : Reg) (v : Word) : (s.writeReg i v).flags = s.flags := rfl
@[simp] theorem writeReg_pc (i : Reg) (v : Word) : (s.writeReg i v).pc = s.pc := rfl
@[simp] theorem writeReg_dmem (i : Reg) (v : Word) : (s.writeReg i v).dmem = s.dmem := rfl
@[simp] theorem writeReg_status (i : Reg) (v : Word) : (s.writeReg i v).status = s.status := rfl
@[simp] theorem writeReg_imem (i : Reg) (v : Word) : (s.writeReg i v).imem = s.imem := rfl
@[simp] theorem writeReg_memSize (i : Reg) (v : Word) : (s.writeReg i v).memSize = s.memSize := rfl

@[simp] theorem writeFlags_x (f : Byte) : (s.writeFlags f).x = s.x := rfl
@[simp] theorem writeFlags_flags (f : Byte) : (s.writeFlags f).flags = f := rfl
@[simp] theorem writeFlags_pc (f : Byte) : (s.writeFlags f).pc = s.pc := rfl
@[simp] theorem writeFlags_dmem (f : Byte) : (s.writeFlags f).dmem = s.dmem := rfl
@[simp] theorem writeFlags_status (f : Byte) : (s.writeFlags f).status = s.status := rfl
@[simp] theorem writeFlags_imem (f : Byte) : (s.writeFlags f).imem = s.imem := rfl
@[simp] theorem writeFlags_memSize (f : Byte) : (s.writeFlags f).memSize = s.memSize := rfl

@[simp] theorem setPc_x (t : Word) : (s.setPc t).x = s.x := rfl
@[simp] theorem setPc_flags (t : Word) : (s.setPc t).flags = s.flags := rfl
@[simp] theorem setPc_pc (t : Word) : (s.setPc t).pc = t := rfl
@[simp] theorem setPc_dmem (t : Word) : (s.setPc t).dmem = s.dmem := rfl
@[simp] theorem setPc_status (t : Word) : (s.setPc t).status = s.status := rfl
@[simp] theorem setPc_imem (t : Word) : (s.setPc t).imem = s.imem := rfl
@[simp] theorem setPc_memSize (t : Word) : (s.setPc t).memSize = s.memSize := rfl

@[simp] theorem advancePc_x : s.advancePc.x = s.x := rfl
@[simp] theorem advancePc_flags : s.advancePc.flags = s.flags := rfl
@[simp] theorem advancePc_pc : s.advancePc.pc = s.pc + 1 := rfl
@[simp] theorem advancePc_dmem : s.advancePc.dmem = s.dmem := rfl
@[simp] theorem advancePc_status : s.advancePc.status = s.status := rfl
@[simp] theorem advancePc_imem : s.advancePc.imem = s.imem := rfl
@[simp] theorem advancePc_memSize : s.advancePc.memSize = s.memSize := rfl

@[simp] theorem setCell_x (a : Nat) (v : Word) : (s.setCell a v).x = s.x := rfl
@[simp] theorem setCell_flags (a : Nat) (v : Word) : (s.setCell a v).flags = s.flags := rfl
@[simp] theorem setCell_pc (a : Nat) (v : Word) : (s.setCell a v).pc = s.pc := rfl
@[simp] theorem setCell_dmem (a : Nat) (v : Word) : (s.setCell a v).dmem = writeCell s.dmem a v := rfl
@[simp] theorem setCell_status (a : Nat) (v : Word) : (s.setCell a v).status = s.status := rfl
@[simp] theorem setCell_imem (a : Nat) (v : Word) : (s.setCell a v).imem = s.imem := rfl
@[simp] theorem setCell_memSize (a : Nat) (v : Word) : (s.setCell a v).memSize = s.memSize := rfl

@[simp] theorem raise_x (e : EngineException) : (s.raise e).x = s.x := rfl
@[simp] theorem raise_flags (e : EngineException) : (s.raise e).flags = s.flags := rfl
@[simp] theorem raise_pc (e : EngineException) : (s.raise e).pc = s.pc := rfl
@[simp] theorem raise_dmem (e : EngineException) : (s.raise e).dmem = s.dmem := rfl
@[simp] theorem raise_status (e : EngineException) : (s.raise e).status = .faulted e := rfl
@[simp] theorem raise_imem (e : EngineException) : (s.raise e).imem = s.imem := rfl
@[simp] theorem raise_memSize (e : EngineException) : (s.raise e).memSize = s.memSize := rfl

@[simp] theorem readReg_writeFlags (f : Byte) (k : Reg) : (s.writeFlags f).readReg k = s.readReg k := rfl
@[simp] theorem readReg_setPc (t : Word) (k : Reg) : (s.setPc t).readReg k = s.readReg k := rfl
@[simp] theorem readReg_advancePc (k : Reg) : s.advancePc.readReg k = s.readReg k := rfl
@[simp] theorem readReg_setCell (a : Nat) (v : Word) (k : Reg) : (s.setCell a v).readReg k = s.readReg k := rfl
@[simp] theorem readReg_raise (e : EngineException) (k : Reg) : (s.raise e).readReg k = s.readReg k := rfl

@[simp] theorem cell_writeReg (i : Reg) (v : Word) (a : Nat) : (s.writeReg i v).cell a = s.cell a := rfl
@[simp] theorem cell_writeFlags (f : Byte) (a : Nat) : (s.writeFlags f).cell a = s.cell a := rfl
@[simp] theorem cell_setPc (t : Word) (a : Nat) : (s.setPc t).cell a = s.cell a := rfl
@[simp] theorem cell_advancePc (a : Nat) : s.advancePc.cell a = s.cell a := rfl
@[simp] theorem cell_raise (e : EngineException) (a : Nat) : (s.raise e).cell a = s.cell a := rfl

/-- Reading a register after a write: the written one reads the value, every other one reads as before. -/
@[simp] theorem readReg_writeReg (i : Reg) (v : Word) (k : Reg) :
    (s.writeReg i v).readReg k = if k = i then v else s.readReg k := by
  simp only [State.readReg, State.writeReg, Vector.getElem_set, BitVec.toNat_inj, eq_comm]

/-- What `aluWrite` does to each field, said once: the destination and the flags come from `alu`, the program counter
advances, and nothing else changes. -/
@[simp] theorem aluWrite_pc (op : AluOp) (t : Reg) (a b : Word) : (s.aluWrite op t a b).pc = s.pc + 1 := rfl
@[simp] theorem aluWrite_flags (op : AluOp) (t : Reg) (a b : Word) :
    (s.aluWrite op t a b).flags = (alu op a b).2 := rfl
@[simp] theorem aluWrite_dmem (op : AluOp) (t : Reg) (a b : Word) : (s.aluWrite op t a b).dmem = s.dmem := rfl
@[simp] theorem aluWrite_status (op : AluOp) (t : Reg) (a b : Word) : (s.aluWrite op t a b).status = s.status := rfl
@[simp] theorem aluWrite_imem (op : AluOp) (t : Reg) (a b : Word) : (s.aluWrite op t a b).imem = s.imem := rfl
@[simp] theorem aluWrite_memSize (op : AluOp) (t : Reg) (a b : Word) :
    (s.aluWrite op t a b).memSize = s.memSize := rfl
@[simp] theorem cell_aluWrite (op : AluOp) (t : Reg) (a b : Word) (c : Nat) :
    (s.aluWrite op t a b).cell c = s.cell c := rfl
@[simp] theorem readReg_aluWrite (op : AluOp) (t : Reg) (a b : Word) (k : Reg) :
    (s.aluWrite op t a b).readReg k = if k = t then (alu op a b).1 else s.readReg k := by
  simp [State.aluWrite]

/-- The halt check changes at most the status. -/
theorem haltCheck_cases :
    (s.status = .running ∧ s.imem.len ≤ s.pc.toNat ∧ s.haltCheck = { s with status := .halted }) ∨
      (¬ (s.status = .running ∧ s.imem.len ≤ s.pc.toNat) ∧ s.haltCheck = s) := by
  by_cases h : s.status = .running ∧ s.imem.len ≤ s.pc.toNat
  · exact .inl ⟨h.1, h.2, by simp [State.haltCheck, h]⟩
  · exact .inr ⟨h, by simp [State.haltCheck, h]⟩

@[simp] theorem haltCheck_x : s.haltCheck.x = s.x := by unfold State.haltCheck; split <;> rfl
@[simp] theorem haltCheck_flags : s.haltCheck.flags = s.flags := by unfold State.haltCheck; split <;> rfl
@[simp] theorem haltCheck_pc : s.haltCheck.pc = s.pc := by unfold State.haltCheck; split <;> rfl
@[simp] theorem haltCheck_dmem : s.haltCheck.dmem = s.dmem := by unfold State.haltCheck; split <;> rfl
@[simp] theorem haltCheck_imem : s.haltCheck.imem = s.imem := by unfold State.haltCheck; split <;> rfl
@[simp] theorem haltCheck_memSize : s.haltCheck.memSize = s.memSize := by unfold State.haltCheck; split <;> rfl

end Sys2Proof.Machine
end

