-- ==== Sys2Proof/Laws/Memory.lean ====
section
/-! SUPPORT. The laws of data memory: what a cell reads after a write, that every memory operation keeps the canonical
form, and what the two memory primitives can answer. -/

namespace Sys2Proof.Machine

theorem readCell_dropCell (m : Memory) (a b : Nat) :
    readCell (dropCell m a) b = if b = a then unlistedCell else readCell m b := by
  induction m with
  | nil => simp [dropCell, readCell]
  | cons c m ih =>
    unfold dropCell at ih ⊢
    by_cases hc : c.1 = a
    · rw [List.filter_cons_of_neg (by simpa using hc), ih]
      by_cases hb : b = a
      · simp [hb]
      · simp only [hb, if_false, readCell]
        rw [if_neg (by omega)]
    · rw [List.filter_cons_of_pos (by simpa using hc)]
      simp only [readCell, ih]
      by_cases hcb : c.1 = b
      · simp [hcb, show b ≠ a by omega]
      · simp [hcb]

theorem readCell_insertCell (m : Memory) (a : Nat) (v : Word) (b : Nat) (h : ∀ c ∈ m, c.1 ≠ a) :
    readCell (insertCell m a v) b = if b = a then v else readCell m b := by
  induction m with
  | nil => simp [insertCell, readCell, eq_comm]
  | cons c m ih =>
    have hc := h c (by simp)
    have ih' := ih fun d hd => h d (by simp [hd])
    unfold insertCell
    split
    · simp [readCell, eq_comm]
    · simp only [readCell, ih']
      by_cases hcb : c.1 = b
      · simp [hcb, show b ≠ a by omega]
      · simp [hcb]

theorem dropCell_ne (m : Memory) (a : Nat) : ∀ c ∈ dropCell m a, c.1 ≠ a := by
  intro c hc
  simpa using (List.mem_filter.mp hc).2

/-- Reading a cell after a write: the written cell reads the value, every other one reads as before. -/
theorem readCell_writeCell (m : Memory) (a : Nat) (v : Word) (b : Nat) :
    readCell (writeCell m a v) b = if b = a then v else readCell m b := by
  unfold writeCell
  split
  · next h => rw [readCell_dropCell, h]
  · rw [readCell_insertCell _ _ _ _ (dropCell_ne m a), readCell_dropCell]
    split <;> rfl

@[simp] theorem cell_setCell (s : State) (a : Nat) (v : Word) (b : Nat) :
    (s.setCell a v).cell b = if b = a then v else s.cell b := readCell_writeCell s.dmem a v b

theorem wf_iff (m : Memory) :
    Memory.wf m = true ↔ (m.Pairwise fun c d => c.1 < d.1) ∧ ∀ c ∈ m, c.2 ≠ unlistedCell := by
  simp [Memory.wf]

theorem mem_insertCell (m : Memory) (a : Nat) (v : Word) (c : Nat × Word) :
    c ∈ insertCell m a v ↔ c = (a, v) ∨ c ∈ m := by
  induction m with
  | nil => simp [insertCell]
  | cons d m ih =>
    unfold insertCell
    split
    · simp
    · simp only [List.mem_cons, ih]
      tauto

/-- Every cell a write leaves listed was listed before or is the written one. -/
theorem mem_writeCell (m : Memory) (a : Nat) (v : Word) (c : Nat × Word) (h : c ∈ writeCell m a v) :
    c = (a, v) ∨ c ∈ m := by
  unfold writeCell at h
  split at h
  · exact .inr (List.mem_filter.mp h).1
  · rcases (mem_insertCell _ _ _ _).mp h with h | h
    · exact .inl h
    · exact .inr (List.mem_filter.mp h).1

theorem insertCell_sorted (m : Memory) (a : Nat) (v : Word) (hm : m.Pairwise fun c d => c.1 < d.1)
    (hne : ∀ c ∈ m, c.1 ≠ a) : (insertCell m a v).Pairwise fun c d => c.1 < d.1 := by
  induction m with
  | nil => simp [insertCell]
  | cons c m ih =>
    rw [List.pairwise_cons] at hm
    have hc := hne c (by simp)
    unfold insertCell
    split
    · next hlt =>
      refine List.pairwise_cons.mpr ⟨?_, List.pairwise_cons.mpr hm⟩
      intro d hd
      rcases List.mem_cons.mp hd with rfl | hd
      · exact hlt
      · exact lt_trans hlt (hm.1 d hd)
    · next hlt =>
      refine List.pairwise_cons.mpr ⟨?_, ih hm.2 fun d hd => hne d (by simp [hd])⟩
      intro d hd
      rcases (mem_insertCell _ _ _ _).mp hd with rfl | hd
      · show c.1 < a
        omega
      · exact hm.1 d hd

/-- A write keeps the canonical form. -/
theorem writeCell_wf (m : Memory) (a : Nat) (v : Word) (h : Memory.wf m = true) :
    Memory.wf (writeCell m a v) = true := by
  rw [wf_iff] at h ⊢
  have hdrop : (dropCell m a).Pairwise fun c d => c.1 < d.1 := h.1.filter _
  unfold writeCell
  split
  · exact ⟨hdrop, fun c hc => h.2 c (List.mem_filter.mp hc).1⟩
  · next hv =>
    refine ⟨insertCell_sorted _ _ _ hdrop (dropCell_ne m a), fun c hc => ?_⟩
    rcases (mem_insertCell _ _ _ _).mp hc with rfl | hc
    · exact hv
    · exact h.2 c (List.mem_filter.mp hc).1

/-- The memory that the caller's seeds give is in canonical form, and its cells exist. -/
theorem seedMemory_wf (n : Nat) (seeds : List (Nat × Word)) :
    Memory.wf (seedMemory n seeds) = true ∧ ∀ c ∈ seedMemory n seeds, c.1 < n := by
  induction seeds with
  | nil => exact ⟨by simp [seedMemory, Memory.wf], by simp [seedMemory]⟩
  | cons c seeds ih =>
    unfold seedMemory
    split
    · next h =>
      refine ⟨writeCell_wf _ _ _ ih.1, fun d hd => ?_⟩
      rcases mem_writeCell _ _ _ _ hd with rfl | hd
      · exact h
      · exact ih.2 d hd
    · exact ih

/-- All that `MemRead` can answer (R39). -/
theorem memRead_cases (s : State) (a : Word) :
    (a.toNat < s.memSize ∧ s.memRead a = .ok (s.cell a.toNat)) ∨
      (s.memSize ≤ a.toNat ∧ s.memRead a = .error (.memoryFault s.pc a .read)) := by
  by_cases h : s.memSize ≤ a.toNat
  · exact .inr ⟨h, by simp [State.memRead, h]⟩
  · exact .inl ⟨by omega, by simp [State.memRead, h]⟩

/-- All that `MemWrite` can answer (R39). -/
theorem memWrite_cases (s : State) (a v : Word) :
    (a.toNat < s.memSize ∧ s.memWrite a v = .ok (s.setCell a.toNat v)) ∨
      (s.memSize ≤ a.toNat ∧ s.memWrite a v = .error (.memoryFault s.pc a .write)) := by
  by_cases h : s.memSize ≤ a.toNat
  · exact .inr ⟨h, by simp [State.memWrite, h]⟩
  · exact .inl ⟨by omega, by simp [State.memWrite, h]⟩

end Sys2Proof.Machine
end

