-- ==== Sys2Proof/Laws/PerInstr.lean ====
section
/-! SUPPORT. The per-instruction family: an instruction has an opcode and a word exactly when it is encodable (R62,
R63), one lemma per constructor. -/

namespace Sys2Proof.Laws

/-- The instruction is encodable exactly when the encoder gives it a word, and exactly when it has an opcode. -/
def EncodableHasWord.Statement (i : Instr) : Prop :=
  (i.encodable = true ↔ ∃ w, encode i = .ok w) ∧ (i.encodable = true ↔ i.opcode.isSome = true)

theorem EncodableHasWord.add (t l r : Reg) : EncodableHasWord.Statement (.add t l r) :=
  ⟨⟨fun _ => ⟨_, rfl⟩, fun _ => rfl⟩, ⟨fun _ => rfl, fun _ => rfl⟩⟩
theorem EncodableHasWord.sub (t l r : Reg) : EncodableHasWord.Statement (.sub t l r) :=
  ⟨⟨fun _ => ⟨_, rfl⟩, fun _ => rfl⟩, ⟨fun _ => rfl, fun _ => rfl⟩⟩
theorem EncodableHasWord.xor (t l r : Reg) : EncodableHasWord.Statement (.xor t l r) :=
  ⟨⟨fun _ => ⟨_, rfl⟩, fun _ => rfl⟩, ⟨fun _ => rfl, fun _ => rfl⟩⟩
theorem EncodableHasWord.addq (t l : Reg) (imm : Byte) : EncodableHasWord.Statement (.addq t l imm) :=
  ⟨⟨fun _ => ⟨_, rfl⟩, fun _ => rfl⟩, ⟨fun _ => rfl, fun _ => rfl⟩⟩
theorem EncodableHasWord.subq (t l : Reg) (imm : Byte) : EncodableHasWord.Statement (.subq t l imm) :=
  ⟨⟨fun _ => ⟨_, rfl⟩, fun _ => rfl⟩, ⟨fun _ => rfl, fun _ => rfl⟩⟩
theorem EncodableHasWord.ldq (v a : Reg) (off : Byte) : EncodableHasWord.Statement (.ldq v a off) :=
  ⟨⟨fun _ => ⟨_, rfl⟩, fun _ => rfl⟩, ⟨fun _ => rfl, fun _ => rfl⟩⟩
theorem EncodableHasWord.stq (v a : Reg) (off : Byte) : EncodableHasWord.Statement (.stq v a off) :=
  ⟨⟨fun _ => ⟨_, rfl⟩, fun _ => rfl⟩, ⟨fun _ => rfl, fun _ => rfl⟩⟩
theorem EncodableHasWord.brq (mask : Mask) (off : Byte) : EncodableHasWord.Statement (.brq mask off) :=
  ⟨⟨fun _ => ⟨_, rfl⟩, fun _ => rfl⟩, ⟨fun _ => rfl, fun _ => rfl⟩⟩
theorem EncodableHasWord.noop : EncodableHasWord.Statement .noop :=
  ⟨⟨fun h => (nomatch h), fun ⟨_, h⟩ => nomatch h⟩, ⟨fun h => (nomatch h), fun h => nomatch h⟩⟩

end Sys2Proof.Laws
end

