-- ==== Sys2Proof/Laws/Step.lean ====
section
/-! SUPPORT. Inversion lemmas: all that a fetch, a load, a store, a branch and a step can do, each said once. -/

namespace Sys2Proof.Machine

variable (s : State)

/-- All that a load can do (R94). -/
theorem execLdq_cases (v a : Reg) (off : Byte) :
    ((s.effAddr a off).toNat < s.memSize ∧
        execLdq v a off s = .next (s.writeReg v (s.cell (s.effAddr a off).toNat)).advancePc) ∨
      (s.memSize ≤ (s.effAddr a off).toNat ∧
        execLdq v a off s = .next (s.raise (.memoryFault s.pc (s.effAddr a off) .read))) := by
  unfold execLdq
  rcases memRead_cases s (s.effAddr a off) with ⟨h, e⟩ | ⟨h, e⟩ <;> rw [e]
  · exact .inl ⟨h, rfl⟩
  · exact .inr ⟨h, rfl⟩

/-- All that a store can do (R95). -/
theorem execStq_cases (v a : Reg) (off : Byte) :
    ((s.effAddr a off).toNat < s.memSize ∧
        execStq v a off s = .next (s.setCell (s.effAddr a off).toNat (s.readReg v)).advancePc) ∨
      (s.memSize ≤ (s.effAddr a off).toNat ∧
        execStq v a off s = .next (s.raise (.memoryFault s.pc (s.effAddr a off) .write))) := by
  unfold execStq
  rcases memWrite_cases s (s.effAddr a off) (s.readReg v) with ⟨h, e⟩ | ⟨h, e⟩ <;> rw [e]
  · exact .inl ⟨h, rfl⟩
  · exact .inr ⟨h, rfl⟩

/-- All that a branch can do (R100). -/
theorem execBrq_cases (mask : Mask) (off : Byte) :
    (taken mask s.flags = true ∧ execBrq mask off s = .next (s.setPc (s.branchTarget off))) ∨
      (taken mask s.flags = false ∧ execBrq mask off s = .next s.advancePc) := by
  unfold execBrq
  cases h : taken mask s.flags
  · exact .inr ⟨rfl, by simp⟩
  · exact .inl ⟨rfl, by simp⟩

/-- All that a step can do (R31, R32): it executes the fetched instruction and makes the halt check, or takes
IllegalInstruction; and the engine was Running. -/
theorem step_cases {s t : State} (h : step s = .next t) :
    s.status = .running ∧
      ((∃ i u, s.fetch = .instr i ∧ exec i s = .next u ∧ t = u.haltCheck) ∨
        ∃ w, s.fetch = .illegal w ∧ t = s.raise (.illegalInstruction s.pc w)) := by
  unfold step at h
  split at h
  · cases h
  · cases h
  · next hs =>
    refine ⟨hs, ?_⟩
    split at h
    · next i hf =>
      cases he : exec i s with
      | next u =>
        rw [he] at h
        exact .inl ⟨i, u, hf, he, by simpa [finishStep] using h.symm⟩
      | fault r => rw [he] at h; cases h
      | refused r => rw [he] at h; cases h
    · next w hf => exact .inr ⟨w, hf, by simpa using h.symm⟩
    · cases h

/-- A fetch answers an instruction or an illegal word exactly inside the program (R36). -/
theorem fetch_beyond_iff : s.fetch = .beyond ↔ s.imem.len ≤ s.pc.toNat := by
  unfold State.fetch fetchAt
  cases s.imem with
  | values instrs =>
    cases h : instrs[s.pc.toNat]? with
    | none => simp [Program.len, List.getElem?_eq_none_iff.mp h]
    | some i => simpa [h, Program.len] using (List.getElem?_eq_some_iff.mp h).1
  | words image =>
    cases h : image[s.pc.toNat]? with
    | none => simp [Program.len, List.getElem?_eq_none_iff.mp h]
    | some w =>
      have hlt := (List.getElem?_eq_some_iff.mp h).1
      simp only [h, Program.len, fetchedWord]
      constructor
      · intro hb
        split at hb <;> cases hb
      · intro hb
        omega

/-- A fetch depends on the program and the program counter alone. -/
theorem fetch_congr {s t : State} (hi : t.imem = s.imem) (hp : t.pc = s.pc) : t.fetch = s.fetch := by
  simp [State.fetch, hi, hp]

end Sys2Proof.Machine
end

