-- ==== Sys2Proof/Tests/Slice0.lean ====
section
/-! SUPPORT. The model's own tests. Expected results come from the spec: the encodings of 30_encoding.md, the examples of
40, 41 and 42, and the vectors of 95_test_vectors.md, whose ids stand in the comments. The last part shows, for each
statement that has hypotheses, a concrete state and operands that meet them together. -/

namespace Sys2Proof.Tests

open Sys2Proof Sys2Proof.Machine

/-! ### WellFormed: each check refuses an ill-formed term -/

theorem test_encodable_refuses_noop : Instr.noop.wellFormed = false := by decide
theorem test_encodable_accepts_add : (Instr.add 0 0 0).wellFormed = true := by decide
theorem test_lenOk_refuses_a_program_too_long : (Program.words (List.replicate (2 ^ 32 - 128) 0)).lenOk = false := by
  simp only [Program.lenOk, Program.len, List.length_replicate, Config.lenBound]
  decide
theorem test_hasWordImage_refuses_noop : (Program.values [.add 0 0 0, .noop, .add 0 0 0]).hasWordImage = false := by decide
theorem test_noTrailingNoop_refuses_trailing : noTrailingNoop [.add 0 0 0, .noop] = false := by decide
theorem test_noTrailingNoop_accepts_internal : noTrailingNoop [.noop, .add 0 0 0] = true := by decide
theorem test_memSizeOk_refuses_zero : memSizeOk 0 = false := by decide
theorem test_memSizeOk_refuses_beyond_addresses : memSizeOk (2 ^ 32 + 1) = false := by decide
theorem test_memSizeOk_accepts_bounds : memSizeOk 1 = true ∧ memSizeOk (2 ^ 32) = true := by decide
theorem test_wf_refuses_listed_zero : Memory.wf [(3, 0)] = false := by decide
theorem test_wf_refuses_unsorted : Memory.wf [(3, 1), (2, 1)] = false := by decide

/-! ### Decoding: one word per constructor, written out field by field from R53 to R56 -/

/-- 00 | target 01 | left 02 | right 03 (source example S4, E1). -/
theorem test_decode_add : decode 0b00000000_00000001_00000010_00000011 = .ok (.add 1 2 3) := by decide
/-- 01 | target 04 | left 03 | right 02 (E4). -/
theorem test_decode_sub : decode 0b00000001_00000100_00000011_00000010 = .ok (.sub 4 3 2) := by decide
/-- 07 | target 0A | left 0B | right 0C (E5). -/
theorem test_decode_xor : decode 0b00000111_00001010_00001011_00001100 = .ok (.xor 10 11 12) := by decide
/-- 10 | target 01 | left FF | immediate -128 (DC5). -/
theorem test_decode_addq : decode 0b00010000_00000001_11111111_10000000 = .ok (.addq 1 255 (-128)) := by decide
/-- 11 | target 07 | left 06 | immediate -128 (E8). -/
theorem test_decode_subq : decode 0b00010001_00000111_00000110_10000000 = .ok (.subq 7 6 (-128)) := by decide
/-- 30 | value 06 | address 05 | displacement 1 (E10). -/
theorem test_decode_ldq : decode 0b00110000_00000110_00000101_00000001 = .ok (.ldq 6 5 1) := by decide
/-- 31 | value 00 | address 01 | displacement -1 (E12). -/
theorem test_decode_stq : decode 0b00110001_00000000_00000001_11111111 = .ok (.stq 0 1 (-1)) := by decide
/-- 51 | 0000 1001 | 00 | offset 6 (E16). -/
theorem test_decode_brq : decode 0b01010001_00001001_00000000_00000110 = .ok (.brq 0b1001 6) := by decide
/-- The all-zero word is an add, not a no-op (R60, DC1). -/
theorem test_decode_zero_word : decode 0 = .ok (.add 0 0 0) := by decide

theorem test_encode_words :
    encode (.add 255 255 255) = .ok 0x00FFFFFF ∧ encode (.addq 1 0 127) = .ok 0x1001007F ∧
    encode (.ldq 255 254 (-128)) = .ok 0x30FFFE80 ∧ encode (.brq 0b0111 (-128)) = .ok 0x51070080 ∧
    encode .noop = .error .noWordForNoop := by decide

/-- DC12, DC18, DC22: undefined opcodes; DC23, DC25: must-be-zero bits. -/
theorem test_decode_illegal :
    decode 0x02000000 = .error (.undefinedOpcode 0x02) ∧ decode 0x32000000 = .error (.undefinedOpcode 0x32) ∧
    decode 0xFFFFFFFF = .error (.undefinedOpcode 0xFF) ∧ decode 0x51100000 = .error (.mustBeZero 0x51100000) ∧
    decode 0x51000100 = .error (.mustBeZero 0x51000100) := by decide

theorem test_decodeTableWord : decodeTableWord 32 0x51090006 = some (.brq 0b1001 6) ∧ decodeTableWord 32 0x02000000 = none := by
  decide

/-! ### One instruction on a small state -/

/-- A running engine at address 3 of a ten-instruction program of words, with some registers and cells set. -/
def demo (f : Byte) (regs : List (Reg × Word)) (mem : List (Nat × Word)) : State :=
  { launch (.words (List.replicate 10 0)) 16 regs mem with pc := 3, flags := f }

/-- What a test reads of an outcome: a register, a cell, the flags, the program counter and whether it is running. -/
def view (o : Host.Outcome State Fault Refusal) (r : Reg) (c : Nat) : Option (Word × Word × Byte × Word × Bool) :=
  match o with
  | .next t => some (t.readReg r, t.cell c, t.flags, t.pc, t.status == .running)
  | .fault _ => none
  | .refused _ => none

/-- ADD5: MIN + MIN is 0 with V and Z. -/
theorem test_add_overflow_to_zero :
    view (exec (.add 1 2 2) (demo 0x02 [(2, 0x80000000)] [])) 1 0 = some (0, 0, 0x05, 4, true) := by decide
/-- AL1: the destination is both sources. -/
theorem test_add_aliased :
    view (exec (.add 1 1 1) (demo 0 [(1, 0x40000000)] [])) 1 0 = some (0x80000000, 0, 0x06, 4, true) := by decide
/-- SUB6: 0 - MIN is MIN with V and N; AL7: left minus right with the destination the right source. -/
theorem test_sub_zero_minus_min :
    view (exec (.sub 1 0 2) (demo 0 [(2, 0x80000000)] [])) 1 0 = some (0x80000000, 0, 0x06, 4, true) := by decide
theorem test_sub_aliased :
    view (exec (.sub 8 9 8) (demo 0 [(8, 10), (9, 3)] [])) 8 0 = some (0xFFFFFFF9, 0, 0x02, 4, true) := by decide
/-- XOR7 with V set before: V is 0 after. -/
theorem test_xor_clears_overflow :
    view (exec (.xor 1 2 3) (demo 0x04 [(2, 0x80000000), (3, 0x7FFFFFFF)] [])) 1 0
      = some (0xFFFFFFFF, 0, 0x02, 4, true) := by decide
/-- ADDQ8: MIN + (-128). -/
theorem test_addq_negative_immediate :
    view (exec (.addq 1 2 0x80) (demo 0 [(2, 0x80000000)] [])) 1 0 = some (0x7FFFFF80, 0, 0x04, 4, true) := by decide
/-- SUBQ4: MAX - (-128). -/
theorem test_subq_negative_immediate :
    view (exec (.subq 1 2 0x80) (demo 0 [(2, 0x7FFFFFFF)] [])) 1 0 = some (0x8000007F, 0, 0x06, 4, true) := by decide
/-- ST3: the destination is the address register; M6: the address wraps to cell 0. -/
theorem test_ldq_aliased :
    view (exec (.ldq 5 5 0) (demo 0x01 [(5, 2)] [(2, 77)])) 5 2 = some (77, 77, 0x01, 4, true) := by decide
theorem test_ldq_wraps :
    view (exec (.ldq 1 2 1) (demo 0 [(2, 0xFFFFFFFF)] [(0, 100)])) 1 0 = some (100, 100, 0, 4, true) := by decide
/-- ST1, and the store just beyond memory (ST6). -/
theorem test_stq_stores :
    view (exec (.stq 1 2 3) (demo 0x02 [(1, 0xFFFFFFF9), (2, 4)] [])) 1 7 = some (0xFFFFFFF9, 0xFFFFFFF9, 0x02, 4, true) := by
  decide
theorem test_stq_faults :
    view (exec (.stq 1 2 0) (demo 0x02 [(1, 9), (2, 16)] [])) 1 16 = some (9, 0, 0x02, 3, false) := by decide
/-- B1 and B2. -/
theorem test_brq_taken : view (exec (.brq 0b1001 6) (demo 0x01 [] [])) 0 0 = some (0, 0, 0x01, 9, true) := by decide
theorem test_brq_untaken : view (exec (.brq 0b1001 6) (demo 0x00 [] [])) 0 0 = some (0, 0, 0x00, 4, true) := by decide
/-- The example of R103. -/
theorem test_noop : view (exec .noop (demo 0x05 [(1, 7)] [(0, 8)])) 1 0 = some (7, 8, 0x05, 4, true) := by decide

/-- The table of R99 on the six flag bytes that can occur: the flags for which each mask is taken. -/
theorem test_mask_table :
    ((List.range 16).map fun m => [0x00#8, 0x01, 0x02, 0x04, 0x05, 0x06].map (taken (BitVec.ofNat 4 m))) =
    [[true, true, true, true, true, true], [true, false, true, true, false, true],
     [true, true, false, true, true, false], [true, false, false, true, false, false],
     [true, true, true, false, false, false], [true, false, true, false, false, false],
     [true, true, false, false, false, false], [true, false, false, false, false, false],
     [false, false, false, false, false, false], [false, true, false, false, true, false],
     [false, false, true, false, false, true], [false, true, true, false, true, true],
     [false, false, false, true, true, true], [false, true, false, true, true, true],
     [false, false, true, true, true, true], [false, true, true, true, true, true]] := by decide

/-! ### One step -/

/-- The status after one step, or the fault of an engine that has none. -/
def after (s : State) : Status × Word ⊕ Fault :=
  match step s with
  | .next t => .inl (t.status, t.pc)
  | .fault r => .inr r
  | .refused _ => .inr .beyondProgram

/-- Z1: the empty program is Halted at launch, and State.reset with it. -/
theorem test_reset_is_halted : after State.reset = .inr .halted := by decide
/-- Z2: a branch to LEN halts. -/
theorem test_branch_to_len_halts : after (launch (.values [.brq 0 1]) 16 [] []) = .inl (.halted, 1) := by decide
/-- B5: a branch below address 0 halts and does not fault. -/
theorem test_branch_below_zero_halts :
    after (launch (.words (0x510000FF :: List.replicate 9 0)) 16 [] []) = .inl (.halted, 0xFFFFFFFF) := by decide
/-- X1: an illegal word. -/
theorem test_illegal_word_faults :
    after (launch (.words [0x02000000]) 16 [] []) = .inl (.faulted (.illegalInstruction 0 0x02000000), 0) := by decide
/-- M3: the first cell beyond memory. -/
theorem test_load_beyond_memory_faults :
    after (launch (.words [0x30010201]) 16 [(2, 15)] []) = .inl (.faulted (.memoryFault 0 16 .read), 0) := by decide
/-- An internal `Noop` runs in the value path (P6). -/
theorem test_noop_steps : after (launch (.values [.noop, .add 0 0 0]) 16 [] []) = .inl (.running, 1) := by decide

/-- The word placed by `withFetchWord` is the first instruction after reset: `addq r1 <- r0, -1`. -/
theorem test_withFetchWord_runs : view (step (State.reset.withFetchWord 32 0x100100FF)) 1 0
    = some (0xFFFFFFFF, 0, 0x02, 1, false) := by decide

/-! ### The listing and the assembler -/

/-- S4 and the listing of section 7 with letter digits. -/
theorem test_listing_line : listing [.add 1 2 3] = .ok "0=>X\"0001_0203\",\n" := by decide
theorem test_listing_letters : listingFrom 12 [0x510F00FF] = "12=>X\"510F_00FF\",\n".toList := by decide
/-- P6: EncodingError at index 1. -/
theorem test_listing_noop : listing [.addq 1 0 1, .noop, .addq 1 1 1] = .error (.encodingError 1) := by decide
/-- A1. -/
theorem test_assemble_backward :
    assemble ["L1:", "addq r1 <- r1, 1", "add r2 <- r2, r1", "brq-0000 L1"]
      = .ok [.addq 1 1 1, .add 2 2 1, .brq 0 (-2)] := by decide
/-- A4. -/
theorem test_assemble_blanks : assemble ["# comment", "  add   r1<-r2 ,r3  ", "# another"] = .ok [.add 1 2 3] := by decide
/-- A7 and A8: the arrow is no operand; the last definition wins. -/
theorem test_assemble_arrow : assemble ["stq r1 <- r2, 0"] = .ok [.stq 1 2 0] := by decide
theorem test_assemble_duplicate : assemble ["x:", "add r1 <- r1, r1", "x:", "brq-1000 x"] = .ok [.add 1 1 1, .brq 0b1000 0] := by
  decide
/-- A9, A11, A12, A13. -/
theorem test_assemble_range : assemble ["addq r1 <- r0, 128"] = .error (.rangeError 128) := by decide
theorem test_assemble_register : assemble ["add r256 <- r0, r0"] = .error (.rangeError 256) := by decide
theorem test_assemble_unresolved : assemble ["brq-0000 x"] = .error (.unresolvedLabelError ['x']) := by decide
theorem test_assemble_empty_line : assemble [""] = .error (.syntaxError []) := by decide

/-! ### Witnesses: a state and operands that meet the hypotheses of each statement -/

/-- A running engine with one instruction value. -/
def valueState (i : Instr) : State := launch (.values [i, i]) 16 [(2, 15)] [(15, 7)]

/-- A running engine with one word. -/
def wordState (w : Word) : State := launch (.words [w, w]) 16 [(2, 15)] [(15, 7)]

theorem valueState_inv (i : Instr) : (valueState i).Inv := by
  refine ⟨?_, ?_, ?_, ?_, ?_, ?_⟩
  · show Memory.wf (seedMemory 16 [(15, 7)]) = true
    decide
  · show (seedMemory 16 [(15, 7)]).all (fun c => decide (c.1 < 16)) = true
    decide
  · show memSizeOk 16 = true
    decide
  · show decide (2 < Config.lenBound) = true
    decide
  · show legalFlags 0 = true
    decide
  · show (0 : Nat) < 2
    decide

theorem witness_EncodeAndDecodeAreInverse :
    (Instr.brq 15 (-128)).wellFormed = true ∧ decode 0x510F0080 = .ok (.brq 15 (-128)) := by decide
theorem witness_OpcodeByteSelectsInstruction :
    decode 0x31000000 = .ok (.stq 0 0 0) ∧ encode (.stq 0 0 0) = .ok 0x31000000 := by decide
theorem witness_SignedFieldStoredAsTwosComplement :
    toImm (-128) = .ok 0x80 ∧ toImm (-1) = .ok 0xFF ∧ toImm 0 = .ok 0 ∧ toImm 127 = .ok 0x7F ∧
      encode (.brq 0 0x80) = .ok 0x51000080 := by decide
theorem witness_StepRunsDecodedInstruction :
    (valueState .noop).status = .running ∧ (valueState .noop).instrAtPc .noop ∧
      exec .noop (valueState .noop) = .next (valueState .noop).advancePc ∧
    (wordState 0).status = .running ∧ (wordState 0).instrAtPc (.add 0 0 0) :=
  ⟨rfl, .inl ⟨_, rfl, rfl⟩, rfl, rfl, .inr ⟨_, _, rfl, rfl, by decide⟩⟩
theorem witness_IllegalWordFaultsAtFetch :
    (wordState 0x51100000).status = .running ∧ (wordState 0x51100000).imem = .words [0x51100000, 0x51100000] ∧
      ([0x51100000, 0x51100000] : List Word)[(wordState 0x51100000).pc.toNat]? = some 0x51100000 ∧
      decode 0x51100000 = .error (.mustBeZero 0x51100000) := ⟨rfl, rfl, rfl, by decide⟩
theorem witness_StoppedEngineStaysStopped :
    State.reset.status = .halted ∧ (State.reset.raise (.memoryFault 0 16 .read)).status = .faulted (.memoryFault 0 16 .read) :=
  ⟨rfl, rfl⟩
theorem witness_RunningEngineAlwaysSteps : (valueState .noop).Inv ∧ (valueState .noop).status = .running ∧ State.reset.status ≠ .running :=
  ⟨valueState_inv _, rfl, by decide⟩
theorem witness_ProgramNeverChanges :
    (∃ t, step (valueState (.brq 0 2)) = .next t ∧ t.imem.len ≤ t.pc.toNat) ∧ (valueState (.brq 0 2)).imem = .values [.brq 0 2, .brq 0 2] ∧
      (wordState 0).imem = .words [0, 0] := ⟨⟨_, rfl, by decide⟩, rfl, rfl⟩
theorem witness_OnlyTakenBranchesJump :
    (∃ t, exec (.brq 0 2) (valueState .noop) = .next t ∧ t.pc = 2) ∧ (∃ t, exec .noop (valueState .noop) = .next t ∧ t.pc = 1) ∧
      ∃ t, exec (.ldq 1 2 1) (valueState .noop) = .next t ∧ t.status = .faulted (.memoryFault 0 16 .read) :=
  ⟨⟨_, rfl, by decide⟩, ⟨_, rfl, by decide⟩, ⟨_, rfl, by decide⟩⟩
theorem witness_LaunchMeetsInvariant :
    (Program.values [.noop]).lenOk = true ∧ (Program.words []).lenOk = true ∧ memSizeOk 1 = true ∧ memSizeOk (2 ^ 32) = true := by decide
theorem witness_StepKeepsInvariant : (valueState (.stq 2 2 0)).Inv ∧ ∃ t, step (valueState (.stq 2 2 0)) = .next t ∧ t.cell 15 = 15 :=
  ⟨valueState_inv _, _, rfl, by decide⟩
theorem witness_FlagByteHoldsSixValues :
    legalFlags (valueState (.sub 1 2 2)).flags = true ∧ ∃ t, step (valueState (.sub 1 2 2)) = .next t ∧ t.flags = 0x01 :=
  ⟨by decide, _, rfl, by decide⟩
theorem witness_RunEndsInAStateOfTheInvariant : (valueState (.brq 0 2)).Inv ∧ (runFor 1 (valueState (.brq 0 2))).successful = true :=
  ⟨valueState_inv _, by decide⟩
theorem witness_HaltingIsNotAnException :
    (∃ t, step (valueState (.brq 0 2)) = .next t ∧ t.status = .halted) ∧
      (∃ t e, step (valueState (.ldq 1 2 1)) = .next t ∧ t.status = .faulted e) ∧ (Program.words []).len = 0 :=
  ⟨⟨_, rfl, by decide⟩, ⟨_, .memoryFault 0 16 .read, rfl, by decide⟩, rfl⟩
theorem witness_FaultsArePreciseAndTruthful :
    (∃ t, step (valueState (.stq 1 2 1)) = .next t ∧ t.status = .faulted (.memoryFault 0 16 .write)) ∧
      ∃ t, step (wordState 0xFF000000) = .next t ∧ t.status = .faulted (.illegalInstruction 0 0xFF000000) :=
  ⟨⟨_, rfl, by decide⟩, ⟨_, rfl, by decide⟩⟩
theorem witness_OutOfRangeAccessFaults :
    (valueState .noop).memSize ≤ ((valueState .noop).effAddr 2 1).toNat ∧
      ¬ (valueState .noop).memSize ≤ ((valueState .noop).effAddr 2 0).toNat := by decide
theorem witness_AluAsSpecified : (Instr.subq 1 2 0x80).isArithmetic = true := by decide
theorem witness_LdqResult : ((valueState .noop).effAddr 2 0).toNat = 15 ∧ 15 < (valueState .noop).memSize := by decide
theorem witness_StqResult : ((valueState .noop).effAddr 0 15).toNat = 15 ∧ 15 < (valueState .noop).memSize := by decide
theorem witness_LoadAfterStore :
    ∃ t u, exec (.stq 2 2 0) (valueState .noop) = .next t ∧ exec (.ldq 4 0 15) t = .next u ∧
      t.effAddr 0 15 = (valueState .noop).effAddr 2 0 ∧ (t.effAddr 0 15).toNat < t.memSize ∧ u.readReg 4 = 15 :=
  ⟨_, _, rfl, rfl, by decide, by decide, by decide⟩
theorem witness_MemoryPrimitives : (15 : Word).toNat < (valueState .noop).memSize ∧ (valueState .noop).memSize ≤ (16 : Word).toNat := by decide
theorem witness_OnlyLoadAndStoreReachMemory :
    Instr.reachesMemory (.xor 1 2 3) = false ∧ (∃ t, exec (.xor 1 2 3) (valueState .noop) = .next t) ∧
      (∃ t, exec (.ldq 1 2 0) (valueState .noop) = .next t) ∧ ∃ t, exec (.stq 1 2 0) (valueState .noop) = .next t :=
  ⟨rfl, ⟨_, rfl⟩, ⟨_, rfl⟩, ⟨_, rfl⟩⟩
theorem witness_OnlyTheStoredCellChanges :
    (valueState (.stq 2 0 3)).instrAtPc (.stq 2 0 3) ∧ (∃ t, exec (.stq 2 0 3) (valueState (.stq 2 0 3)) = .next t) ∧
      (∃ t, step (valueState (.stq 2 0 3)) = .next t) ∧ (Instr.stq 2 0 3).storeAddr (valueState (.stq 2 0 3)) = some 3 :=
  ⟨.inl ⟨_, rfl, rfl⟩, ⟨_, rfl⟩, ⟨_, rfl⟩, by decide⟩
theorem witness_CanonicalMemoryIsUnique :
    Memory.wf [(3, 5)] = true ∧ Memory.wf (writeCell [] 3 5) = true ∧ ∀ a, readCell [(3, 5)] a = readCell (writeCell [] 3 5) a :=
  ⟨by decide, by decide, fun _ => rfl⟩
theorem witness_RegisterAccessTable :
    (∃ t, exec (.ldq 1 2 0) (valueState .noop) = .next t) ∧ (1 : Reg) ∉ (Instr.ldq 1 2 0).regsRead ∧
      (1 : Reg) ∈ (Instr.ldq 1 2 0).regsWritten ∧ (2 : Reg) ∉ (Instr.ldq 1 2 0).regsWritten ∧
      (Instr.ldq 1 2 0).accessAddr (valueState .noop) = some 15 := ⟨⟨_, rfl⟩, by decide, by decide, by decide, by decide⟩
theorem witness_OnlyArithmeticWritesFlags :
    (valueState (.stq 2 0 3)).instrAtPc (.stq 2 0 3) ∧ (Instr.stq 2 0 3).isArithmetic = false ∧
      (∃ t, exec (.stq 2 0 3) (valueState (.stq 2 0 3)) = .next t) ∧ ∃ t, step (valueState (.stq 2 0 3)) = .next t :=
  ⟨.inl ⟨_, rfl, rfl⟩, rfl, ⟨_, rfl⟩, ⟨_, rfl⟩⟩
theorem witness_OnlyBranchesReadFlags :
    (∀ mask off, Instr.ldq 1 2 0 ≠ .brq mask off) ∧ (∃ t, exec (.ldq 1 2 0) (valueState .noop) = .next t) ∧
      (∃ t, exec (.brq 9 6) (valueState .noop) = .next t) ∧
      (0xF8 : Byte)[2] = (valueState .noop).flags[2] ∧ (0xF8 : Byte)[1] = (valueState .noop).flags[1] ∧
      (0xF8 : Byte)[0] = (valueState .noop).flags[0] :=
  ⟨(by intro _ _ h; cases h), ⟨_, rfl⟩, ⟨_, rfl⟩, by decide, by decide, by decide⟩
theorem witness_BranchCondition : taken 0b1001 0x01 = true ∧ taken 0b1001 0x00 = false ∧ taken 0b0000 0x06 = true ∧ taken 0b1000 0x06 = false := by
  decide
theorem witness_BranchBelowZeroHalts :
    (valueState (.brq 0 (-128))).imem.lenOk = true ∧ (valueState (.brq 0 (-128))).status = .running ∧
      (valueState (.brq 0 (-128))).instrAtPc (.brq 0 (-128)) ∧ taken 0 (valueState (.brq 0 (-128))).flags = true ∧
      ((valueState (.brq 0 (-128))).pc.toNat : Int) + (-128 : Byte).toInt < 0 :=
  ⟨by decide, rfl, .inl ⟨_, rfl, rfl⟩, by decide, by decide⟩
theorem witness_BranchToSelfNeverEnds :
    (valueState (.brq 0 0)).status = .running ∧ (valueState (.brq 0 0)).instrAtPc (.brq 0 0) ∧
      taken 0 (valueState (.brq 0 0)).flags = true := ⟨rfl, .inl ⟨_, rfl, rfl⟩, by decide⟩
theorem witness_WordPathAgreesWithValuePath : (valueState (.brq 0 2)).imem.hasWordImage = true := by decide
theorem witness_ListingFailsExactlyAtNoop : .noop ∉ [Instr.add 1 2 3] ∧ listing [.add 1 2 3, .noop] = .error (.encodingError 1) := by
  decide
theorem witness_ListingDeterminesProgram : listing [.brq 15 (-1)] = .ok "0=>X\"510F_00FF\",\n" := by decide
theorem witness_LastLabelNamesNextAddress : Statement.label ['x'] ∉ [Statement.instr .noop, .label ['y']] := by decide
theorem witness_SymbolicJumpReachesItsLabel :
    resolveJump [(['x'], 0)] 128 0 ['x'] = .ok (.brq 0 (-128)) ∧ resolveJump [(['x'], 127)] 0 0 ['x'] = .ok (.brq 0 127) ∧
      labelAddr [(['x'], 128)] ['x'] = some 128 ∧ labelAddr [] ['x'] = none ∧
      (valueState .noop).pc = BitVec.ofNat 32 0 ∧ taken 0 (valueState .noop).flags = true := by decide

end Sys2Proof.Tests
end

/-! PROOFS. The statements of 10_state.md: a stopped engine (R34), the flags an instruction reads (R27) and the
registers it reads and writes (R22). Writes to different parts of the state commute, so that running an instruction
after such a write is the same write after the instruction, unless the instruction replaces what was written. -/

namespace Sys2Proof.Machine

/-! ### A stopped engine -/

section Stopped
variable {s : State}

theorem step_of_halted (h : s.status = .halted) : step s = .fault .halted := by simp only [step, h]

theorem step_of_faulted {e : EngineException} (h : s.status = .faulted e) : step s = .fault (.faulted e) := by
  simp only [step, h]

/-- A run looks at the status before it spends any of its budget (R33). -/
theorem runFor_of_halted (h : s.status = .halted) (k : Nat) : runFor k s = .halted s := by
  cases k <;> simp only [runFor, h]

theorem runFor_of_faulted {e : EngineException} (h : s.status = .faulted e) (k : Nat) : runFor k s = .faulted e s := by
  cases k <;> simp only [runFor, h]

end Stopped

/-- Settles O10: both the step and the run decide on the status alone. -/
theorem stoppedEngineStaysStopped : Obligations.StoppedEngineStaysStopped := by
  intro s
  refine ⟨fun h => ⟨fun t ht => ?_, runFor_of_halted h⟩, fun e h => ⟨fun t ht => ?_, runFor_of_faulted h⟩⟩
  · rw [step_of_halted h] at ht
    cases ht
  · rw [step_of_faulted h] at ht
    cases ht

/-! ### The forms of an instruction -/

section Forms

theorem exec_noop (s : State) : exec .noop s = .next s.advancePc := rfl

section Access
variable {s : State} {a : Reg} {off : Byte} (v : Reg)

/-- A load in range completes (R94). -/
theorem exec_ldq_of_lt (h : (s.effAddr a off).toNat < s.memSize) :
    exec (.ldq v a off) s = .next (s.writeReg v (s.cell (s.effAddr a off).toNat)).advancePc :=
  (execLdq_cases s v a off).elim And.right fun hc => absurd h (Nat.not_lt.mpr hc.1)

/-- A load out of range only takes its exception (R94, R108). -/
theorem exec_ldq_of_le (h : s.memSize ≤ (s.effAddr a off).toNat) :
    exec (.ldq v a off) s = .next (s.raise (.memoryFault s.pc (s.effAddr a off) .read)) :=
  (execLdq_cases s v a off).elim (fun hc => absurd hc.1 (Nat.not_lt.mpr h)) And.right

/-- A store in range completes (R95). -/
theorem exec_stq_of_lt (h : (s.effAddr a off).toNat < s.memSize) :
    exec (.stq v a off) s = .next (s.setCell (s.effAddr a off).toNat (s.readReg v)).advancePc :=
  (execStq_cases s v a off).elim And.right fun hc => absurd h (Nat.not_lt.mpr hc.1)

/-- A store out of range only takes its exception (R95, R108). -/
theorem exec_stq_of_le (h : s.memSize ≤ (s.effAddr a off).toNat) :
    exec (.stq v a off) s = .next (s.raise (.memoryFault s.pc (s.effAddr a off) .write)) :=
  (execStq_cases s v a off).elim (fun hc => absurd hc.1 (Nat.not_lt.mpr h)) And.right

end Access

section Branch
variable {s : State} {mask : Mask} (off : Byte)

/-- A taken branch goes to its target (R100). -/
theorem exec_brq_of_taken (h : taken mask s.flags = true) :
    exec (.brq mask off) s = .next (s.setPc (s.branchTarget off)) :=
  (execBrq_cases s mask off).elim And.right fun hc => absurd h (by simp [hc.1])

/-- An untaken branch goes to the next instruction (R100). -/
theorem exec_brq_of_not_taken (h : ¬ taken mask s.flags = true) : exec (.brq mask off) s = .next s.advancePc :=
  (execBrq_cases s mask off).elim (fun hc => absurd hc.1 h) And.right

end Branch

/-- An instruction is an arithmetic one, a load, a store, a branch or the placeholder. -/
theorem instr_forms (i : Instr) :
    i.isArithmetic = true ∨ (∃ v a off, i = .ldq v a off) ∨ (∃ v a off, i = .stq v a off) ∨
      (∃ mask off, i = .brq mask off) ∨ i = .noop := by
  cases i <;> simp [Instr.isArithmetic]

/-- All that an arithmetic instruction does (R86 to R90): one `aluWrite` to the register the table of R22 lists as
written, of two operands that depend on no register but those it lists as read. -/
theorem exec_of_isArithmetic {i : Instr} (h : i.isArithmetic = true) :
    ∃ (op : AluOp) (d : Reg) (a b : State → Word), i.regsWritten = [d] ∧
      (∀ s, exec i s = .next (s.aluWrite op d (a s) (b s))) ∧
      ∀ s s', (∀ r ∈ i.regsRead, s'.readReg r = s.readReg r) → a s' = a s ∧ b s' = b s := by
  cases i with
  | add t l r =>
    exact ⟨.add, t, (·.readReg l), (·.readReg r), rfl, fun _ => rfl, fun _ _ h => by simpa [Instr.regsRead] using h⟩
  | sub t l r =>
    exact ⟨.sub, t, (·.readReg l), (·.readReg r), rfl, fun _ => rfl, fun _ _ h => by simpa [Instr.regsRead] using h⟩
  | xor t l r =>
    exact ⟨.xor, t, (·.readReg l), (·.readReg r), rfl, fun _ => rfl, fun _ _ h => by simpa [Instr.regsRead] using h⟩
  | addq t l imm =>
    exact ⟨.add, t, (·.readReg l), fun _ => sext32 imm, rfl, fun _ => rfl,
      fun _ _ h => by simpa [Instr.regsRead] using h⟩
  | subq t l imm =>
    exact ⟨.sub, t, (·.readReg l), fun _ => sext32 imm, rfl, fun _ => rfl,
      fun _ _ h => by simpa [Instr.regsRead] using h⟩
  | ldq | stq | brq | noop => cases h

end Forms

/-! ### Running an instruction after a write to the flags -/

section Flags
variable (s : State) (f : Byte)

theorem advancePc_writeFlags : (s.writeFlags f).advancePc = s.advancePc.writeFlags f := rfl

/-- The ALU replaces the whole flag byte (R26). -/
theorem aluWrite_writeFlags (op : AluOp) (d : Reg) (a b : Word) :
    (s.writeFlags f).aluWrite op d a b = s.aluWrite op d a b := rfl

variable {s}

/-- An arithmetic instruction leaves no trace of the old flags. -/
theorem exec_writeFlags_of_isArithmetic {i : Instr} (hi : i.isArithmetic = true) :
    exec i (s.writeFlags f) = exec i s := by
  obtain ⟨op, d, a, b, -, hexec, hoperands⟩ := exec_of_isArithmetic hi
  obtain ⟨ha, hb⟩ := hoperands s (s.writeFlags f) fun r _ => readReg_writeFlags s f r
  rw [hexec, hexec, ha, hb, aluWrite_writeFlags]

/-- A load, a store and the placeholder carry the flag byte through, whatever it holds (D11). -/
theorem exec_writeFlags_of_not_isArithmetic {i : Instr} {t : State} (hi : ¬ i.isArithmetic = true)
    (hbrq : ∀ mask off, i ≠ .brq mask off) (h : exec i s = .next t) :
    exec i (s.writeFlags f) = .next (t.writeFlags f) := by
  rcases instr_forms i with ha | ⟨v, a, off, rfl⟩ | ⟨v, a, off, rfl⟩ | ⟨mask, off, rfl⟩ | rfl
  · exact absurd ha hi
  · rcases lt_or_ge (s.effAddr a off).toNat s.memSize with hin | hout
    · rw [exec_ldq_of_lt v hin] at h
      cases h
      exact exec_ldq_of_lt (s := s.writeFlags f) v hin
    · rw [exec_ldq_of_le v hout] at h
      cases h
      exact exec_ldq_of_le (s := s.writeFlags f) v hout
  · rcases lt_or_ge (s.effAddr a off).toNat s.memSize with hin | hout
    · rw [exec_stq_of_lt v hin] at h
      cases h
      exact exec_stq_of_lt (s := s.writeFlags f) v hin
    · rw [exec_stq_of_le v hout] at h
      cases h
      exact exec_stq_of_le (s := s.writeFlags f) v hout
  · exact absurd rfl (hbrq mask off)
  · rw [exec_noop] at h ⊢
    cases h
    rw [advancePc_writeFlags]

/-- The condition of a branch reads bits 2..0 of the flag byte alone (R98). -/
theorem taken_congr (mask : Mask) {f g : Byte} (hv : f[2] = g[2]) (hn : f[1] = g[1]) (hz : f[0] = g[0]) :
    taken mask f = taken mask g := by
  simp only [taken, hv, hn, hz]

/-- A branch carries the flag byte through and reads nothing of it but the condition. -/
theorem exec_brq_writeFlags {mask : Mask} {off : Byte} {t : State} (hf : taken mask f = taken mask s.flags)
    (h : exec (.brq mask off) s = .next t) : exec (.brq mask off) (s.writeFlags f) = .next (t.writeFlags f) := by
  by_cases htaken : taken mask s.flags = true
  · rw [exec_brq_of_taken off htaken] at h
    cases h
    exact exec_brq_of_taken (s := s.writeFlags f) off (hf.trans htaken)
  · rw [exec_brq_of_not_taken off htaken] at h
    cases h
    exact exec_brq_of_not_taken (s := s.writeFlags f) off (hf ▸ htaken)

end Flags

/-- Settles O43: arithmetic replaces the flag byte unread, loads, stores and the placeholder carry it through, and a
branch reads it through its condition. -/
theorem onlyBranchesReadFlags : Obligations.OnlyBranchesReadFlags := by
  refine ⟨fun i s t f hbrq h => ?_, fun mask off s t f hv hn hz h => exec_brq_writeFlags f (taken_congr mask hv hn hz) h⟩
  by_cases hi : i.isArithmetic = true
  · exact ⟨t, (exec_writeFlags_of_isArithmetic f hi).trans h, rfl, rfl, rfl, rfl, by rw [if_pos hi]⟩
  · exact ⟨t.writeFlags f, exec_writeFlags_of_not_isArithmetic f hi hbrq h, rfl, rfl, rfl, rfl, by
      rw [if_neg hi, writeFlags_flags]⟩

/-! ### Running an instruction after a write to a register -/

section Registers
variable {s t : State} {i : Instr} {k : Reg}

/-- An instruction changes no register but those the table of R22 lists as written. -/
theorem readReg_exec_of_notMem_regsWritten (h : exec i s = .next t) (hk : k ∉ i.regsWritten) :
    t.readReg k = s.readReg k := by
  rcases instr_forms i with ha | ⟨d, a, off, rfl⟩ | ⟨d, a, off, rfl⟩ | ⟨mask, off, rfl⟩ | rfl
  · obtain ⟨op, d, a, b, hd, hexec, -⟩ := exec_of_isArithmetic ha
    rw [hexec] at h
    cases h
    rw [readReg_aluWrite, if_neg (by simpa [hd] using hk)]
  · have hkd : k ≠ d := by simpa [Instr.regsWritten] using hk
    rcases lt_or_ge (s.effAddr a off).toNat s.memSize with hin | hout
    · rw [exec_ldq_of_lt d hin] at h
      cases h
      rw [readReg_advancePc, readReg_writeReg, if_neg hkd]
    · rw [exec_ldq_of_le d hout] at h
      cases h
      rw [readReg_raise]
  · rcases lt_or_ge (s.effAddr a off).toNat s.memSize with hin | hout
    · rw [exec_stq_of_lt d hin] at h
      cases h
      rw [readReg_advancePc, readReg_setCell]
    · rw [exec_stq_of_le d hout] at h
      cases h
      rw [readReg_raise]
  · by_cases htaken : taken mask s.flags = true
    · rw [exec_brq_of_taken off htaken] at h
      cases h
      rw [readReg_setPc]
    · rw [exec_brq_of_not_taken off htaken] at h
      cases h
      rw [readReg_advancePc]
  · rw [exec_noop] at h
    cases h
    rw [readReg_advancePc]

theorem advancePc_writeReg (s : State) (k : Reg) (v : Word) :
    (s.writeReg k v).advancePc = s.advancePc.writeReg k v := rfl

/-- The later of two writes to one register stands. -/
theorem writeReg_writeReg (s : State) (k : Reg) (v w : Word) :
    (s.writeReg k v).writeReg k w = s.writeReg k w := by
  simp [State.writeReg]

/-- Writes to two registers commute. -/
theorem writeReg_comm (s : State) {k d : Reg} (h : k ≠ d) (v w : Word) :
    (s.writeReg k v).writeReg d w = (s.writeReg d w).writeReg k v := by
  have hnat : k.toNat ≠ d.toNat := fun e => h (BitVec.eq_of_toNat_eq e)
  simp [State.writeReg, Vector.set_comm _ _ hnat]

/-- The result of the ALU replaces what its destination held. -/
theorem aluWrite_writeReg (s : State) (op : AluOp) (d : Reg) (a b v : Word) :
    (s.writeReg d v).aluWrite op d a b = s.aluWrite op d a b := by
  simp only [State.aluWrite, writeReg_writeReg]

theorem aluWrite_writeReg_of_ne (s : State) (op : AluOp) {k d : Reg} (h : k ≠ d) (a b v : Word) :
    (s.writeReg k v).aluWrite op d a b = (s.aluWrite op d a b).writeReg k v := by
  simp only [State.aluWrite, writeReg_comm s h]
  rfl

/-- The effective address depends on its base register alone (R93). -/
theorem effAddr_writeReg_of_ne (s : State) {k a : Reg} (h : k ≠ a) (v : Word) (off : Byte) :
    (s.writeReg k v).effAddr a off = s.effAddr a off := by
  rw [State.effAddr, readReg_writeReg, if_neg h.symm, State.effAddr]

/-- An instruction passes over register `k`, of which the table of R22 says that it is not read: whatever `k` holds,
the instruction overwrites it, or carries it through and does the same in all else. It carries a register it is to
write only when its memory access is out of range. -/
theorem exec_writeReg_of_notMem_regsRead (v : Word) (h : exec i s = .next t) (hk : k ∉ i.regsRead) :
    exec i (s.writeReg k v) = .next t ∨
      exec i (s.writeReg k v) = .next (t.writeReg k v) ∧
        (k ∈ i.regsWritten → ∃ ea, i.accessAddr s = some ea ∧ s.memSize ≤ ea.toNat) := by
  rcases instr_forms i with ha | ⟨d, a, off, rfl⟩ | ⟨d, a, off, rfl⟩ | ⟨mask, off, rfl⟩ | rfl
  · obtain ⟨op, d, a, b, hd, hexec, hoperands⟩ := exec_of_isArithmetic ha
    obtain ⟨ha, hb⟩ := hoperands s (s.writeReg k v) fun r hr => by
      rw [readReg_writeReg, if_neg (ne_of_mem_of_not_mem hr hk)]
    rw [hexec] at h
    cases h
    rw [hexec, ha, hb]
    by_cases hkd : k = d
    · left
      rw [hkd, aluWrite_writeReg]
    · right
      exact ⟨by rw [aluWrite_writeReg_of_ne s op hkd], fun hmem => absurd (by simpa [hd] using hmem) hkd⟩
  · have hka : k ≠ a := by simpa [Instr.regsRead] using hk
    have hea := effAddr_writeReg_of_ne s hka v off
    rcases lt_or_ge (s.effAddr a off).toNat s.memSize with hin | hout
    · rw [exec_ldq_of_lt d hin] at h
      cases h
      rw [exec_ldq_of_lt d (by rwa [hea]), hea, cell_writeReg]
      by_cases hkd : k = d
      · left
        rw [hkd, writeReg_writeReg]
      · right
        exact ⟨by rw [writeReg_comm s hkd, advancePc_writeReg],
          fun hmem => absurd (by simpa [Instr.regsWritten] using hmem) hkd⟩
    · rw [exec_ldq_of_le d hout] at h
      cases h
      rw [exec_ldq_of_le d (by rwa [hea]), hea]
      exact .inr ⟨rfl, fun _ => ⟨_, rfl, hout⟩⟩
  · obtain ⟨hka, hkd⟩ : k ≠ a ∧ k ≠ d := by simpa [Instr.regsRead] using hk
    have hea := effAddr_writeReg_of_ne s hka v off
    refine .inr ⟨?_, fun hmem => nomatch hmem⟩
    rcases lt_or_ge (s.effAddr a off).toNat s.memSize with hin | hout
    · rw [exec_stq_of_lt d hin] at h
      cases h
      rw [exec_stq_of_lt d (by rwa [hea]), hea, readReg_writeReg, if_neg hkd.symm]
      rfl
    · rw [exec_stq_of_le d hout] at h
      cases h
      rw [exec_stq_of_le d (by rwa [hea]), hea]
      rfl
  · refine .inr ⟨?_, fun hmem => nomatch hmem⟩
    by_cases htaken : taken mask s.flags = true
    · rw [exec_brq_of_taken off htaken] at h
      cases h
      exact exec_brq_of_taken (s := s.writeReg k v) off htaken
    · rw [exec_brq_of_not_taken off htaken] at h
      cases h
      exact exec_brq_of_not_taken (s := s.writeReg k v) off htaken
  · refine .inr ⟨?_, fun hmem => nomatch hmem⟩
    rw [exec_noop] at h ⊢
    cases h
    rw [advancePc_writeReg]

end Registers

/-- Settles O41: the frame of the written registers, and that an instruction passes over a register it does not
read. -/
theorem registerAccessTable : Obligations.RegisterAccessTable := by
  refine ⟨fun i s t h k hk => readReg_exec_of_notMem_regsWritten h hk, fun i s t k v h hk => ?_⟩
  rcases exec_writeReg_of_notMem_regsRead v h hk with e | ⟨e, hcarried⟩
  · exact ⟨t, e, rfl, rfl, rfl, rfl, fun _ _ => rfl, fun _ _ => rfl⟩
  · refine ⟨t.writeReg k v, e, rfl, rfl, rfl, rfl, fun j hj => ?_, fun hmem hrange => ?_⟩
    · rw [readReg_writeReg, if_neg hj]
    · obtain ⟨ea, haccess, hout⟩ := hcarried hmem
      exact absurd (hrange ea haccess) (Nat.not_lt.mpr hout)

end Sys2Proof.Machine

/-! PROOFS. The statements of 20_memory.md: instruction memory is fixed and fetched only inside the program (R36), and
only the load and the store reach data memory (R38). -/

namespace Sys2Proof.Machine

/-! ### What an instruction can do to the state -/

section Frame
variable {s t : State} {i : Instr}

/-- All that an instruction can do, said of the state alone: it ends in one of the four updates that complete it, or
takes its memory fault at its own address. -/
theorem exec_cases (h : exec i s = .next t) :
    (∃ op d a b, t = s.aluWrite op d a b) ∨ (∃ d v, t = (s.writeReg d v).advancePc) ∨
      (∃ c v, t = (s.setCell c v).advancePc) ∨ (∃ p, t = s.setPc p) ∨
      ∃ ea acc, t = s.raise (.memoryFault s.pc ea acc) := by
  rcases instr_forms i with ha | ⟨d, a, off, rfl⟩ | ⟨v, a, off, rfl⟩ | ⟨mask, off, rfl⟩ | rfl
  · obtain ⟨op, d, a, b, -, hexec, -⟩ := exec_of_isArithmetic ha
    cases (hexec s).symm.trans h
    exact .inl ⟨_, _, _, _, rfl⟩
  · rcases execLdq_cases s d a off with ⟨-, e⟩ | ⟨-, e⟩ <;> cases e.symm.trans h
    · exact .inr (.inl ⟨_, _, rfl⟩)
    · exact .inr (.inr (.inr (.inr ⟨_, _, rfl⟩)))
  · rcases execStq_cases s v a off with ⟨-, e⟩ | ⟨-, e⟩ <;> cases e.symm.trans h
    · exact .inr (.inr (.inl ⟨_, _, rfl⟩))
    · exact .inr (.inr (.inr (.inr ⟨_, _, rfl⟩)))
  · rcases execBrq_cases s mask off with ⟨-, e⟩ | ⟨-, e⟩ <;> cases e.symm.trans h <;>
      exact .inr (.inr (.inr (.inl ⟨_, rfl⟩)))
  · cases (exec_noop s).symm.trans h
    exact .inr (.inr (.inr (.inl ⟨_, rfl⟩)))

/-- No instruction changes the program or MEM_SIZE, and one that changes the status took its exception, which leaves
the program counter (R108). -/
theorem exec_keeps_parameters (h : exec i s = .next t) :
    t.imem = s.imem ∧ t.memSize = s.memSize ∧ (t.status = s.status ∨ t.pc = s.pc) := by
  rcases exec_cases h with ⟨op, d, a, b, rfl⟩ | ⟨d, v, rfl⟩ | ⟨c, v, rfl⟩ | ⟨p, rfl⟩ | ⟨ea, acc, rfl⟩
  · exact ⟨rfl, rfl, .inl rfl⟩
  · exact ⟨rfl, rfl, .inl rfl⟩
  · exact ⟨rfl, rfl, .inl rfl⟩
  · exact ⟨rfl, rfl, .inl rfl⟩
  · exact ⟨rfl, rfl, .inr rfl⟩

end Frame

/-! ### Instruction memory -/

section Fetch
variable {s t : State}

/-- Inside the program a fetch answers (R36). -/
theorem fetch_ne_beyond_iff : s.fetch ≠ .beyond ↔ s.pc.toNat < s.imem.len := by
  rw [ne_eq, fetch_beyond_iff, Nat.not_le]

/-- The two answers of a fetch inside the program. -/
theorem fetch_instr_or_illegal_iff :
    (∃ i, s.fetch = .instr i) ∨ (∃ w, s.fetch = .illegal w) ↔ s.pc.toNat < s.imem.len := by
  rw [← fetch_ne_beyond_iff]
  cases s.fetch <;> simp

/-- In the value path a fetch gives exactly the instruction at the program counter (R31). -/
theorem fetch_instr_iff_of_values {instrs : List Instr} (h : s.imem = .values instrs) (i : Instr) :
    s.fetch = .instr i ↔ instrs[s.pc.toNat]? = some i := by
  rw [State.fetch, h, fetchAt]
  cases instrs[s.pc.toNat]? <;> simp

/-- In the word path a fetch answers exactly where a word stands (R32). -/
theorem fetch_answers_iff_of_words {image : List Word} (h : s.imem = .words image) :
    (∃ i, s.fetch = .instr i) ∨ (∃ w, s.fetch = .illegal w) ↔ ∃ w, image[s.pc.toNat]? = some w := by
  rw [fetch_instr_or_illegal_iff, h, Program.len, ← Option.isSome_iff_exists, isSome_getElem?]

/-- A step fetches inside the program. -/
theorem pc_lt_len_of_step (h : step s = .next t) : s.pc.toNat < s.imem.len := by
  obtain ⟨-, ⟨i, u, hfetch, -, -⟩ | ⟨w, hfetch, -⟩⟩ := step_cases h
  · exact fetch_instr_or_illegal_iff.mp (.inl ⟨i, hfetch⟩)
  · exact fetch_instr_or_illegal_iff.mp (.inr ⟨w, hfetch⟩)

/-- No step changes the program or MEM_SIZE. -/
theorem step_keeps_parameters (h : step s = .next t) : t.imem = s.imem ∧ t.memSize = s.memSize := by
  obtain ⟨-, ⟨i, u, -, hexec, rfl⟩ | ⟨w, -, rfl⟩⟩ := step_cases h
  · obtain ⟨himem, hsize, -⟩ := exec_keeps_parameters hexec
    rw [haltCheck_imem, haltCheck_memSize]
    exact ⟨himem, hsize⟩
  · exact ⟨rfl, rfl⟩

/-- The halt check halts a Running engine outside the program. -/
theorem haltCheck_status_of_le (hs : s.status = .running) (h : s.imem.len ≤ s.pc.toNat) :
    s.haltCheck.status = .halted := by
  rw [State.haltCheck, if_pos ⟨hs, h⟩]

/-- A step that leaves the program halts (R31): an exception cannot leave it, as it does not move the program
counter. -/
theorem halted_of_step_of_le (h : step s = .next t) (hle : t.imem.len ≤ t.pc.toNat) : t.status = .halted := by
  have hlt := pc_lt_len_of_step h
  obtain ⟨hs, ⟨i, u, -, hexec, rfl⟩ | ⟨w, -, rfl⟩⟩ := step_cases h
  · rw [haltCheck_imem, haltCheck_pc] at hle
    obtain ⟨himem, -, hstatus | hpc⟩ := exec_keeps_parameters hexec
    · exact haltCheck_status_of_le (hstatus.trans hs) hle
    · rw [himem, hpc] at hle
      exact absurd hlt (Nat.not_lt.mpr hle)
  · exact absurd hlt (Nat.not_lt.mpr hle)

end Fetch

/-- Settles O13: the frame of a step and its halt check, and what a fetch answers on each path. -/
theorem programNeverChanges : Obligations.ProgramNeverChanges := by
  refine ⟨fun s t h => ?_, fun s instrs himem => fetch_instr_iff_of_values himem,
    fun s image himem => fetch_answers_iff_of_words himem, fetch_beyond_iff⟩
  obtain ⟨himem, hsize⟩ := step_keeps_parameters h
  exact ⟨himem, hsize, pc_lt_len_of_step h, halted_of_step_of_le h⟩

/-! ### Data memory -/

section DataMemory
variable {s t : State}

/-- An instruction other than a load or a store carries data memory through, whatever it holds. -/
theorem exec_withMemory_of_not_reachesMemory {i : Instr} (hi : i.reachesMemory = false) (h : exec i s = .next t)
    (m : Memory) : t.dmem = s.dmem ∧ exec i { s with dmem := m } = .next { t with dmem := m } := by
  rcases instr_forms i with ha | ⟨v, a, off, rfl⟩ | ⟨v, a, off, rfl⟩ | ⟨mask, off, rfl⟩ | rfl
  · obtain ⟨op, d, a, b, -, hexec, hoperands⟩ := exec_of_isArithmetic ha
    obtain ⟨ha, hb⟩ := hoperands s { s with dmem := m } fun _ _ => rfl
    cases (hexec s).symm.trans h
    refine ⟨rfl, ?_⟩
    rw [hexec, ha, hb]
    rfl
  · cases hi
  · cases hi
  · by_cases htaken : taken mask s.flags = true
    · cases (exec_brq_of_taken off htaken).symm.trans h
      exact ⟨rfl, exec_brq_of_taken (s := { s with dmem := m }) off htaken⟩
    · cases (exec_brq_of_not_taken off htaken).symm.trans h
      exact ⟨rfl, exec_brq_of_not_taken (s := { s with dmem := m }) off htaken⟩
  · cases (exec_noop s).symm.trans h
    exact ⟨rfl, rfl⟩

variable {v a : Reg} {off : Byte}

/-- A load leaves data memory, and in range copies the addressed cell to its register (R94). -/
theorem exec_ldq_copies_cell (h : exec (.ldq v a off) s = .next t) :
    t.dmem = s.dmem ∧
      ((s.effAddr a off).toNat < s.memSize → t.readReg v = s.cell (s.effAddr a off).toNat) := by
  rcases execLdq_cases s v a off with ⟨-, e⟩ | ⟨hout, e⟩ <;> cases e.symm.trans h
  · exact ⟨rfl, fun _ => by rw [readReg_advancePc, readReg_writeReg, if_pos rfl]⟩
  · exact ⟨rfl, fun hin => absurd hin (Nat.not_lt.mpr hout)⟩

/-- A store leaves the registers, and in range copies its register to the addressed cell (R95). -/
theorem exec_stq_copies_register (h : exec (.stq v a off) s = .next t) :
    t.x = s.x ∧ ((s.effAddr a off).toNat < s.memSize → t.cell (s.effAddr a off).toNat = s.readReg v) := by
  rcases execStq_cases s v a off with ⟨-, e⟩ | ⟨hout, e⟩ <;> cases e.symm.trans h
  · exact ⟨rfl, fun _ => by rw [cell_advancePc, cell_setCell, if_pos rfl]⟩
  · exact ⟨rfl, fun hin => absurd hin (Nat.not_lt.mpr hout)⟩

end DataMemory

/-- Settles O38: the other instructions carry data memory through, a load only reads it, a store only writes it. -/
theorem onlyLoadAndStoreReachMemory : Obligations.OnlyLoadAndStoreReachMemory :=
  ⟨fun _ _ _ m hi h => exec_withMemory_of_not_reachesMemory hi h m, fun _ _ _ _ _ h => exec_ldq_copies_cell h,
    fun _ _ _ _ _ h => exec_stq_copies_register h⟩

end Sys2Proof.Machine

/-! PROOFS. The statements of 30_encoding.md: the opcode byte selects the instruction (R58), and a signed field is
stored as its two's-complement byte (R52). -/

namespace Sys2Proof

/-! ### The opcode byte -/

section Opcode
variable {i : Instr} {w : Word}

/-- The decoder answers an instruction of the opcode it has tested the word for (R64). -/
theorem opcode_of_decode (h : decode w = .ok i) : i.opcode = some (opcodeOf w) := by
  unfold decode at h
  split_ifs at h <;> cases h
  all_goals exact congrArg some (Eq.symm ‹opcodeOf w = _›)

/-- The encoder's word is four packed bytes, the instruction's opcode first (R62). -/
theorem encode_eq_packBytes (h : encode i = .ok w) :
    ∃ op b2 b1 b0, i.opcode = some op ∧ w = packBytes op b2 b1 b0 := by
  cases i with
  | noop => cases h
  | add | sub | xor | addq | subq | ldq | stq | brq =>
    cases h
    exact ⟨_, _, _, _, rfl, rfl⟩

/-- The encoder writes the opcode of the table of R58. -/
theorem opcode_of_encode (h : encode i = .ok w) : i.opcode = some (opcodeOf w) := by
  obtain ⟨op, b2, b1, b0, hop, rfl⟩ := encode_eq_packBytes h
  rw [opcodeOf_packBytes, hop]

end Opcode

/-- Settles O3: the decoder tests the opcode byte for the opcode of its answer, and the encoder writes it. -/
theorem opcodeByteSelectsInstruction : Obligations.OpcodeByteSelectsInstruction :=
  ⟨fun _ _ h => opcode_of_decode h, fun _ _ h => opcode_of_encode h, rfl⟩

/-! ### The signed field -/

section SignedField
variable {v : Int}

/-- A byte holds an integer in the signed range modulo 2^8: `u8` of R52. -/
theorem toNat_ofInt_of_signedRange (hlo : -128 ≤ v) (hhi : v ≤ 127) :
    ((BitVec.ofInt 8 v).toNat : Int) = if 0 ≤ v then v else v + 256 := by
  rw [BitVec.toNat_ofInt]
  split <;> omega

/-- The byte loses nothing of an integer of the signed range (R52). -/
theorem toInt_ofInt_of_signedRange (hlo : -128 ≤ v) (hhi : v ≤ 127) : (BitVec.ofInt 8 v).toInt = v :=
  BitVec.toInt_ofInt_eq_self (by decide) hlo (by omega)

/-- The range check passes an integer of the signed range (R73). -/
theorem Machine.toImm_of_signedRange (hlo : -128 ≤ v) (hhi : v ≤ 127) :
    Machine.toImm v = .ok (BitVec.ofInt 8 v) :=
  if_pos ⟨hlo, hhi⟩

/-- The encoder packs the signed field of formats Q, M and J as the last byte (R54 to R56). -/
theorem encode_signedField {p q : Reg} {m : Mask} {b : Byte} {i : Instr}
    (hi : i ∈ [Instr.addq p q b, .subq p q b, .ldq p q b, .stq p q b, .brq m b]) :
    ∃ op b2 b1, encode i = .ok (packBytes op b2 b1 b) := by
  simp only [List.mem_cons, List.not_mem_nil, or_false] at hi
  obtain rfl | rfl | rfl | rfl | rfl := hi
  all_goals exact ⟨_, _, _, rfl⟩

end SignedField

/-- Settles O7: the byte and its reading back by arithmetic modulo 2^8, and the byte's place by the packing of the
encoder. -/
theorem signedFieldStoredAsTwosComplement : Obligations.SignedFieldStoredAsTwosComplement := by
  refine ⟨fun v hlo hhi => ?_, rfl, rfl, fun p q m b w i hi h => ?_⟩
  · exact ⟨_, Machine.toImm_of_signedRange hlo hhi, toNat_ofInt_of_signedRange hlo hhi,
      toInt_ofInt_of_signedRange hlo hhi⟩
  · obtain ⟨op, b2, b1, hword⟩ := encode_signedField hi
    cases hword.symm.trans h
    exact op3Of_packBytes op b2 b1 b

end Sys2Proof

/-! PROOFS. The statements of 40_arithmetic.md: the flags Z and N of the shared arithmetic (R85). -/

namespace Sys2Proof.Machine

/-! ### The flags of the wrapped result -/

section ResultFlags
variable (op : AluOp) (a b : Word)

/-- The negative flag is the sign bit of the wrapped result (R85). -/
theorem alu_flags_n : (alu op a b).2[1] = (alu op a b).1.msb := by rw [alu_flags, flagByte_n, alu_result]

/-- The zero flag tests the wrapped result (R85). -/
theorem alu_flags_z_iff : (alu op a b).2[0] = true ↔ (alu op a b).1 = 0 := by
  rw [alu_flags, flagByte_z, alu_result, beq_iff_eq]

/-- The sign bit of a word is bit 31, read as the index that R85 writes. -/
theorem msb_eq_bit31 (r : Word) : r.msb = r[31] := BitVec.msb_eq_getLsbD_last r

theorem alu_flags_n_iff_bit31 : (alu op a b).2[1] = true ↔ (alu op a b).1[31] = true := by
  rw [alu_flags_n, msb_eq_bit31]

theorem alu_flags_n_iff_neg : (alu op a b).2[1] = true ↔ (alu op a b).1.toInt < 0 := by
  rw [alu_flags_n, BitVec.msb_eq_toInt, decide_eq_true_iff]

/-- A zero result has a clear sign bit, so one word cannot set both flags (R28, R85). -/
theorem alu_flags_not_z_and_n : ¬ ((alu op a b).2[0] = true ∧ (alu op a b).2[1] = true) := by
  rintro ⟨hz, hn⟩
  have hzero : (alu op a b).1 = 0 := (alu_flags_z_iff op a b).mp hz
  rw [alu_flags_n, hzero] at hn
  exact absurd hn (by decide)

end ResultFlags

/-- Settles O27: each flag is read off the wrapped result, and the example of R85 is evaluated. -/
theorem zeroAndNegativeFromWrappedResult : Obligations.ZeroAndNegativeFromWrappedResult :=
  ⟨fun op a b => ⟨alu_flags_z_iff op a b, alu_flags_n_iff_bit31 op a b, alu_flags_n_iff_neg op a b,
    alu_flags_not_z_and_n op a b⟩, by decide⟩

end Sys2Proof.Machine

/-! PROOFS. The statements of 60_exceptions.md: leaving the program is no exception (R110). -/

namespace Sys2Proof.Machine

/-! ### The status after a step -/

section Halting
variable {s t : State}

/-- An instruction keeps the status or takes an exception; it never halts the engine itself (R31). -/
theorem exec_status {i : Instr} (h : exec i s = .next t) : t.status = s.status ∨ ∃ e, t.status = .faulted e := by
  rcases exec_cases h with ⟨op, d, a, b, rfl⟩ | ⟨d, v, rfl⟩ | ⟨c, v, rfl⟩ | ⟨p, rfl⟩ | ⟨ea, acc, rfl⟩
  · exact .inl rfl
  · exact .inl rfl
  · exact .inl rfl
  · exact .inl rfl
  · exact .inr ⟨_, rfl⟩

/-- The halt check halts only outside the program (R31). -/
theorem le_of_haltCheck_halted (hs : s.status ≠ .halted) (h : s.haltCheck.status = .halted) :
    s.imem.len ≤ s.pc.toNat := by
  rcases haltCheck_cases s with ⟨-, hle, -⟩ | ⟨-, e⟩
  · exact hle
  · rw [e] at h
    exact absurd h hs

/-- A step halts only by its halt check, since neither the instruction nor an illegal word gives the status Halted. -/
theorem le_of_step_of_halted (h : step s = .next t) (ht : t.status = .halted) : t.imem.len ≤ t.pc.toNat := by
  obtain ⟨hs, ⟨i, u, -, hexec, rfl⟩ | ⟨w, -, rfl⟩⟩ := step_cases h
  · have hu : u.status ≠ .halted := by
      rcases exec_status hexec with e | ⟨r, e⟩
      · rw [e, hs]
        nofun
      · rw [e]
        nofun
    rw [haltCheck_imem, haltCheck_pc]
    exact le_of_haltCheck_halted hu ht
  · cases ht

/-- After a step the engine is Halted exactly outside the program (R31, R110). -/
theorem halted_iff_of_step (h : step s = .next t) : t.status = .halted ↔ t.imem.len ≤ t.pc.toNat :=
  ⟨le_of_step_of_halted h, halted_of_step_of_le h⟩

/-- An exception leaves the engine inside the program: outside it the step would have halted (R110). -/
theorem pc_lt_len_of_step_of_faulted {e : EngineException} (h : step s = .next t) (ht : t.status = .faulted e) :
    t.pc.toNat < t.imem.len := by
  by_contra hge
  have hhalted := (halted_iff_of_step h).mpr (Nat.not_lt.mp hge)
  cases hhalted.symm.trans ht

end Halting

/-- The empty program is Halted at launch (R123). -/
theorem launch_status_of_len_eq_zero {p : Program} (h : p.len = 0) (n : Nat) (regs : List (Reg × Word))
    (mem : List (Nat × Word)) : (launch p n regs mem).status = .halted :=
  if_neg (Nat.not_lt.mpr h.le)

/-- Settles O22: a step halts exactly outside the program, so an exception is inside it, and launch makes the same
check. -/
theorem haltingIsNotAnException : Obligations.HaltingIsNotAnException := by
  refine ⟨fun s t h => ⟨⟨fun ht => ⟨fun e hf => ?_, (halted_iff_of_step h).mp ht⟩, ?_⟩, ?_⟩, ?_⟩
  · cases ht.symm.trans hf
  · exact fun ⟨_, hle⟩ => (halted_iff_of_step h).mpr hle
  · exact fun _ hf => pc_lt_len_of_step_of_faulted h hf
  · exact fun p n regs mem hp => launch_status_of_len_eq_zero hp n regs mem

end Sys2Proof.Machine

/-! PROOFS. The statements of 30_encoding.md: the encoder and the decoder are inverse (R67), which words are illegal
(R59, R65) and how many are legal. -/

namespace Sys2Proof

/-! ### A word is its four byte fields -/

section Fields
variable {w : Word}

theorem packBytes_fields (w : Word) : packBytes (opcodeOf w) (op1Of w) (op2Of w) (op3Of w) = w := by
  ext k hk
  simp only [packBytes, opcodeOf, op1Of, op2Of, op3Of]
  grind

theorem packBytes_of_opcodeOf {op : Byte} (h : opcodeOf w = op) :
    packBytes op (op1Of w) (op2Of w) (op3Of w) = w := h ▸ packBytes_fields w

/-- Operand 1 of a branch word is its four high bits and the mask (R56). -/
theorem brqHighOf_append_maskOf (w : Word) : brqHighOf w ++ maskOf w = op1Of w := by
  ext k hk
  simp only [brqHighOf, maskOf, op1Of]
  grind

theorem zero_append_maskOf (h : brqHighOf w = 0) : 0#4 ++ maskOf w = op1Of w := by
  rw [← brqHighOf_append_maskOf, h]
  rfl

variable (b3 b1 b0 : Byte) (high mask : BitVec 4)

@[simp] theorem brqHighOf_packBytes : brqHighOf (packBytes b3 (high ++ mask) b1 b0) = high := by
  ext k hk
  simp only [brqHighOf, packBytes]
  grind

@[simp] theorem maskOf_packBytes : maskOf (packBytes b3 (high ++ mask) b1 b0) = mask := by
  ext k hk
  simp only [maskOf, packBytes]
  grind

end Fields

/-! ### The round trip -/

section RoundTrip
variable {i j : Instr} {w : Word}

/-- Encoding what a word decodes to packs the word's own fields again. -/
theorem encode_of_decode (h : decode w = .ok i) : encode i = .ok w := by
  unfold decode at h
  split_ifs at h with hadd hsub hxor haddq hsubq hldq hstq hbrq hzero <;> cases h
  · exact congrArg Except.ok (packBytes_of_opcodeOf hadd)
  · exact congrArg Except.ok (packBytes_of_opcodeOf hsub)
  · exact congrArg Except.ok (packBytes_of_opcodeOf hxor)
  · exact congrArg Except.ok (packBytes_of_opcodeOf haddq)
  · exact congrArg Except.ok (packBytes_of_opcodeOf hsubq)
  · exact congrArg Except.ok (packBytes_of_opcodeOf hldq)
  · exact congrArg Except.ok (packBytes_of_opcodeOf hstq)
  · obtain ⟨hhigh, hop2⟩ := hzero
    rw [encode, zero_append_maskOf hhigh, ← hop2, packBytes_of_opcodeOf hbrq]

/-- The decoder reads back the opcode and the fields that the encoder packed. -/
theorem decode_of_encode (h : encode i = .ok w) : decode w = .ok i := by
  cases i with
  | noop => cases h
  | add | sub | xor | addq | subq | ldq | stq | brq =>
    cases h
    simp [decode]

/-- The decoder and the encoder are the same relation between words and instructions (R67). -/
theorem decode_eq_ok_iff : decode w = .ok i ↔ encode i = .ok w := ⟨encode_of_decode, decode_of_encode⟩

/-- Every instruction but the placeholder is encodable exactly when it has a word (R62, R63). -/
theorem encodable_iff : ∀ i : Instr, i.encodable = true ↔ ∃ w, encode i = .ok w
  | .add t l r => (Laws.EncodableHasWord.add t l r).1
  | .sub t l r => (Laws.EncodableHasWord.sub t l r).1
  | .xor t l r => (Laws.EncodableHasWord.xor t l r).1
  | .addq t l imm => (Laws.EncodableHasWord.addq t l imm).1
  | .subq t l imm => (Laws.EncodableHasWord.subq t l imm).1
  | .ldq v a off => (Laws.EncodableHasWord.ldq v a off).1
  | .stq v a off => (Laws.EncodableHasWord.stq v a off).1
  | .brq mask off => (Laws.EncodableHasWord.brq mask off).1
  | .noop => Laws.EncodableHasWord.noop.1

end RoundTrip

/-- Settles O2: the two directions of `decode_eq_ok_iff`, an instruction with a word being a well-formed one. -/
theorem encodeAndDecodeAreInverse : Obligations.EncodeAndDecodeAreInverse := by
  refine ⟨fun i hi => ?_, fun w i h => ?_⟩
  · obtain ⟨w, hw⟩ := (encodable_iff i).mp hi
    exact ⟨w, hw, decode_of_encode hw⟩
  · exact ⟨(encodable_iff i).mpr ⟨w, encode_of_decode h⟩, encode_of_decode h⟩

/-- Settles O5: the encoder refuses the placeholder, so by the round trip no word decodes to it. -/
theorem noWordForNoop : Obligations.NoWordForNoop :=
  ⟨fun _ h => (nomatch h), fun _ h => (nomatch encode_of_decode h)⟩

/-- Settles O1: the nine words are evaluated. -/
theorem specWordsDecode : Obligations.SpecWordsDecode := by
  unfold Obligations.SpecWordsDecode
  decide

/-! ### Legal and illegal words -/

section Legal
variable {w : Word}

/-- The legal words: one of the seven opcodes that take any operands, or a branch without stray bits (R59, R65). -/
theorem exists_decode_ok_iff (w : Word) :
    (∃ i, decode w = .ok i) ↔
      opcodeOf w ∈ ([0x00, 0x01, 0x07, 0x10, 0x11, 0x30, 0x31] : List Byte) ∨
        opcodeOf w = 0x51 ∧ brqHighOf w = 0 ∧ op2Of w = 0 := by
  unfold decode
  split_ifs <;> simp_all

theorem exists_decode_error_iff (w : Word) : (∃ e, decode w = .error e) ↔ ¬ ∃ i, decode w = .ok i := by
  cases decode w <;> simp

theorem isOk_decode_iff (w : Word) : (decode w).isOk = true ↔ ∃ i, decode w = .ok i := by
  cases decode w <;> simp [Except.isOk, Except.toBool]

end Legal

/-- Settles O4: an illegal word is one that is not legal. -/
theorem illegalWordsAreTheseExactly : Obligations.IllegalWordsAreTheseExactly := by
  intro w
  rw [exists_decode_error_iff, exists_decode_ok_iff]
  change _ ↔ opcodeOf w ∉ _ ∨ opcodeOf w = 0x51 ∧ (brqHighOf w ≠ 0 ∨ op2Of w ≠ 0)
  by_cases hop : opcodeOf w = 0x51
  · simp [hop, imp_iff_not_or]
  · simp only [hop, false_and, or_false, List.mem_cons, List.not_mem_nil]

/-! ### The number of legal words -/

section Count

/-- The seven opcodes that take any operands, as numbers (R58). -/
def freeOpcodes : Finset Nat := {0x00, 0x01, 0x07, 0x10, 0x11, 0x30, 0x31}

/-- The numbers of the words with one of the seven free opcodes. -/
def freeWords : Finset Nat := (freeOpcodes ×ˢ Finset.range (2 ^ 24)).image fun p => p.1 * 2 ^ 24 + p.2

/-- The numbers of the legal branch words, by mask and offset. -/
def branchWords : Finset Nat :=
  (Finset.range 16 ×ˢ Finset.range 256).image fun p => 0x51 * 2 ^ 24 + p.1 * 2 ^ 16 + p.2

theorem mem_freeOpcodes {n : Nat} :
    n ∈ freeOpcodes ↔ n = 0x00 ∨ n = 0x01 ∨ n = 0x07 ∨ n = 0x10 ∨ n = 0x11 ∨ n = 0x30 ∨ n = 0x31 := by
  simp [freeOpcodes]

theorem mem_freeWords {n : Nat} : n ∈ freeWords ↔ n / 2 ^ 24 ∈ freeOpcodes := by
  simp only [freeWords, Finset.mem_image, Finset.mem_product, Finset.mem_range, Prod.exists]
  constructor
  · rintro ⟨op, r, ⟨hop, hr⟩, rfl⟩
    rwa [show (op * 2 ^ 24 + r) / 2 ^ 24 = op by omega]
  · exact fun h => ⟨n / 2 ^ 24, n % 2 ^ 24, ⟨h, by omega⟩, by omega⟩

theorem mem_branchWords {n : Nat} :
    n ∈ branchWords ↔ n / 2 ^ 24 = 0x51 ∧ n / 2 ^ 20 % 2 ^ 4 = 0 ∧ n / 2 ^ 8 % 2 ^ 8 = 0 := by
  simp only [branchWords, Finset.mem_image, Finset.mem_product, Finset.mem_range, Prod.exists]
  constructor
  · rintro ⟨mask, off, ⟨hm, ho⟩, rfl⟩
    omega
  · exact fun h => ⟨n / 2 ^ 16 % 16, n % 256, ⟨by omega, by omega⟩, by omega⟩

theorem card_freeWords : freeWords.card = 7 * 2 ^ 24 := by
  rw [freeWords, Finset.card_image_of_injOn, Finset.card_product, Finset.card_range]
  · rfl
  · rintro ⟨op, r⟩ hp ⟨op', r'⟩ hp' h
    simp only [Finset.coe_product, Set.mem_prod, Finset.mem_coe, Finset.mem_range] at hp hp' h
    ext <;> omega

theorem card_branchWords : branchWords.card = 4096 := by
  rw [branchWords, Finset.card_image_of_injOn, Finset.card_product, Finset.card_range, Finset.card_range]
  rintro ⟨mask, off⟩ hp ⟨mask', off'⟩ hp' h
  simp only [Finset.coe_product, Set.mem_prod, Finset.mem_coe, Finset.mem_range] at hp hp' h
  ext <;> omega

theorem disjoint_freeWords_branchWords : Disjoint freeWords branchWords := by
  refine Finset.disjoint_left.mpr fun n hfree hbranch => ?_
  rw [mem_freeWords, mem_freeOpcodes] at hfree
  rw [mem_branchWords] at hbranch
  omega

/-- The number of a field of `len` bits from bit `start` on. -/
theorem extractLsb'_ofNat_eq_iff {n : Nat} (hn : n < 2 ^ 32) (start len : Nat) (b : BitVec len) :
    (BitVec.ofNat 32 n).extractLsb' start len = b ↔ n / 2 ^ start % 2 ^ len = b.toNat := by
  rw [← BitVec.toNat_inj, BitVec.extractLsb'_toNat, BitVec.toNat_ofNat, Nat.mod_eq_of_lt hn,
    Nat.shiftRight_eq_div_pow]

/-- The legal words by their numbers. -/
theorem isOk_decode_ofNat_iff {n : Nat} (hn : n < 2 ^ 32) :
    (decode (BitVec.ofNat 32 n)).isOk = true ↔ n ∈ freeWords ∪ branchWords := by
  have hop : n / 2 ^ 24 % 2 ^ 8 = n / 2 ^ 24 := by omega
  rw [isOk_decode_iff, exists_decode_ok_iff, Finset.mem_union, mem_freeWords, mem_freeOpcodes, mem_branchWords]
  simp only [List.mem_cons, List.not_mem_nil, or_false, opcodeOf, brqHighOf, op2Of, extractLsb'_ofNat_eq_iff hn, hop]
  rfl

end Count

/-- Settles O6: the legal words are the free words and the branch words, and no word is both. -/
theorem legalWordCount : Obligations.LegalWordCount := by
  have hlegal : ((Finset.range (2 ^ 32)).filter fun n => (decode (BitVec.ofNat 32 n)).isOk = true) =
      freeWords ∪ branchWords := by
    ext n
    rw [Finset.mem_filter, Finset.mem_range]
    constructor
    · exact fun ⟨hn, h⟩ => (isOk_decode_ofNat_iff hn).mp h
    · intro h
      have hn : n < 2 ^ 32 := by
        rw [Finset.mem_union, mem_freeWords, mem_freeOpcodes, mem_branchWords] at h
        omega
      exact ⟨hn, (isOk_decode_ofNat_iff hn).mpr h⟩
  unfold Obligations.LegalWordCount
  rw [hlegal, Finset.card_union_of_disjoint disjoint_freeWords_branchWords, card_freeWords, card_branchWords]
  norm_num

end Sys2Proof

/-! PROOFS. The statements of 10_state.md and 60_exceptions.md about what one instruction and one step can do: program
order, faults, the flag byte and the invariant of the engine's states (R24, R28, R30, R108). -/

namespace Sys2Proof.Machine

/-! ### What each instruction does -/

section Effect

/-- What an instruction does to a state, form by form: the outcomes that R86 to R103 list for it. -/
inductive Effect (s : State) : Instr → State → Prop
  | arithmetic {i : Instr} (hi : i.isArithmetic = true) (op : AluOp) (d : Reg) (a b : Word) :
      Effect s i (s.aluWrite op d a b)
  | load {v a : Reg} {off : Byte} (hin : (s.effAddr a off).toNat < s.memSize) :
      Effect s (.ldq v a off) (s.writeReg v (s.cell (s.effAddr a off).toNat)).advancePc
  | loadFault {v a : Reg} {off : Byte} (hout : s.memSize ≤ (s.effAddr a off).toNat) :
      Effect s (.ldq v a off) (s.raise (.memoryFault s.pc (s.effAddr a off) .read))
  | store {v a : Reg} {off : Byte} (hin : (s.effAddr a off).toNat < s.memSize) :
      Effect s (.stq v a off) (s.setCell (s.effAddr a off).toNat (s.readReg v)).advancePc
  | storeFault {v a : Reg} {off : Byte} (hout : s.memSize ≤ (s.effAddr a off).toNat) :
      Effect s (.stq v a off) (s.raise (.memoryFault s.pc (s.effAddr a off) .write))
  | jump {mask : Mask} {off : Byte} (h : taken mask s.flags = true) :
      Effect s (.brq mask off) (s.setPc (s.branchTarget off))
  | fallThrough {mask : Mask} {off : Byte} (h : ¬ taken mask s.flags = true) : Effect s (.brq mask off) s.advancePc
  | placeholder : Effect s .noop s.advancePc

/-- Every instruction answers a next state, and it is the one its effect names. -/
theorem exists_exec_effect (i : Instr) (s : State) : ∃ t, exec i s = .next t ∧ Effect s i t := by
  rcases instr_forms i with hi | ⟨v, a, off, rfl⟩ | ⟨v, a, off, rfl⟩ | ⟨mask, off, rfl⟩ | rfl
  · obtain ⟨op, d, a, b, -, hexec, -⟩ := exec_of_isArithmetic hi
    exact ⟨_, hexec s, .arithmetic hi op d (a s) (b s)⟩
  · rcases lt_or_ge (s.effAddr a off).toNat s.memSize with hin | hout
    · exact ⟨_, exec_ldq_of_lt v hin, .load hin⟩
    · exact ⟨_, exec_ldq_of_le v hout, .loadFault hout⟩
  · rcases lt_or_ge (s.effAddr a off).toNat s.memSize with hin | hout
    · exact ⟨_, exec_stq_of_lt v hin, .store hin⟩
    · exact ⟨_, exec_stq_of_le v hout, .storeFault hout⟩
  · by_cases h : taken mask s.flags = true
    · exact ⟨_, exec_brq_of_taken off h, .jump h⟩
    · exact ⟨_, exec_brq_of_not_taken off h, .fallThrough h⟩
  · exact ⟨_, exec_noop s, .placeholder⟩

theorem effect_of_exec {i : Instr} {s t : State} (h : exec i s = .next t) : Effect s i t := by
  obtain ⟨u, hexec, heffect⟩ := exists_exec_effect i s
  cases hexec.symm.trans h
  exact heffect

end Effect

/-- Settles O12: the effect of an instruction is a completion, which keeps the status, or its memory fault. -/
theorem execAlwaysAnswersNext : Obligations.ExecAlwaysAnswersNext := by
  intro i s
  obtain ⟨t, hexec, heffect⟩ := exists_exec_effect i s
  refine ⟨t, hexec, ?_⟩
  cases heffect with
  | loadFault | storeFault => exact .inr ⟨_, _, rfl⟩
  | arithmetic | load | store | jump | fallThrough | placeholder => exact .inl rfl

/-! ### Wrapped sums with a signed byte -/

section Wrap

/-- Sign extension keeps the signed value (R57). -/
theorem sext32_eq_wrap32 (b : Byte) : sext32 b = wrap32 b.toInt := rfl

theorem toInt_sext32 (b : Byte) : (sext32 b).toInt = b.toInt := BitVec.toInt_signExtend_of_le (by decide)

theorem wrap32_toInt (a : Word) : wrap32 a.toInt = a := BitVec.ofInt_toInt

theorem wrap32_natCast (n : Nat) : wrap32 n = BitVec.ofNat 32 n := BitVec.ofInt_natCast 32 n

theorem wrap32_toNat (a : Word) : wrap32 a.toNat = a := by
  rw [wrap32_natCast, BitVec.ofNat_toNat, BitVec.setWidth_eq]

theorem wrap32_add (m n : Int) : wrap32 (m + n) = wrap32 m + wrap32 n := BitVec.ofInt_add m n

theorem wrap32_sub (m n : Int) : wrap32 (m - n) = wrap32 m - wrap32 n := by
  rw [eq_sub_iff_add_eq, ← wrap32_add, sub_add_cancel]

/-- A wrapped word is the number modulo 2^32, read as unsigned (R8). -/
theorem toNat_wrap32 (n : Int) : ((wrap32 n).toNat : Int) = n % 2 ^ 32 := by
  rw [wrap32, BitVec.toNat_ofInt]
  omega

/-- Adding a sign-extended byte adds its signed value, modulo 2^32 (R93, R101). -/
theorem add_sext32 (a : Word) (b : Byte) : a + sext32 b = wrap32 (a.toNat + b.toInt) := by
  rw [wrap32_add, wrap32_toNat, sext32_eq_wrap32]

theorem branchTarget_eq_wrap32 (s : State) (off : Byte) : s.branchTarget off = wrap32 (s.pc.toNat + off.toInt) :=
  add_sext32 s.pc off

end Wrap

/-- Settles O14: by the effect, an instruction advances, jumps as a taken branch, or raised its memory fault. -/
theorem onlyTakenBranchesJump : Obligations.OnlyTakenBranchesJump := by
  intro i s t h
  cases effect_of_exec h with
  | arithmetic | load | store | fallThrough | placeholder => exact .inl rfl
  | jump htaken => exact .inr (.inl ⟨_, _, rfl, htaken, branchTarget_eq_wrap32 s _⟩)
  | loadFault | storeFault => exact .inr (.inr ⟨_, rfl, rfl⟩)

/-! ### Fetching and stepping -/

section Step
variable {s t : State} {i : Instr}

/-- The instruction at the program counter is the one a fetch answers, on either path (R31, R32). -/
theorem fetch_of_instrAtPc (h : s.instrAtPc i) : s.fetch = .instr i := by
  obtain ⟨instrs, himem, hat⟩ | ⟨image, w, himem, hat, hw⟩ := h
  · simp only [State.fetch, fetchAt, himem, hat]
  · simp only [State.fetch, fetchAt, himem, hat, fetchedWord, hw]

theorem step_of_fetch_instr (hs : s.status = .running) (hf : s.fetch = .instr i) :
    step s = finishStep (exec i s) := by
  simp only [step, hs, hf]

theorem step_of_fetch_illegal {w : Word} (hs : s.status = .running) (hf : s.fetch = .illegal w) :
    step s = .next (s.raise (.illegalInstruction s.pc w)) := by
  simp only [step, hs, hf]

/-- Running at an instruction, a step is the instruction and the halt check (R31). -/
theorem step_of_exec (hs : s.status = .running) (hf : s.fetch = .instr i) (h : exec i s = .next t) :
    step s = .next t.haltCheck := by
  rw [step_of_fetch_instr hs hf, h, finishStep]

/-- A step from an instruction at the program counter ran that instruction. -/
theorem exec_of_step (hi : s.instrAtPc i) (h : step s = .next t) : ∃ u, exec i s = .next u ∧ t = u.haltCheck := by
  obtain ⟨-, ⟨j, u, hf, hexec, rfl⟩ | ⟨w, hf, -⟩⟩ := step_cases h
  · cases (fetch_of_instrAtPc hi).symm.trans hf
    exact ⟨u, hexec, rfl⟩
  · cases (fetch_of_instrAtPc hi).symm.trans hf

end Step

/-- Settles O8: a running step is the instruction, its halt check reading the program that no instruction changes. -/
theorem stepRunsDecodedInstruction : Obligations.StepRunsDecodedInstruction := by
  intro s i hs hi
  have hstep := step_of_fetch_instr hs (fetch_of_instrAtPc hi)
  refine ⟨fun t ht => ?_, fun r hr => ?_, fun r hr => ?_⟩
  · rw [step_of_exec hs (fetch_of_instrAtPc hi) ht, State.haltCheck, (exec_keeps_parameters ht).1]
  · rw [hstep, hr, finishStep]
  · rw [hstep, hr, finishStep]

/-- Settles O9: the fetch answers the illegal word, and the step raises it. -/
theorem illegalWordFaultsAtFetch : Obligations.IllegalWordFaultsAtFetch := by
  intro s image w e hs himem hat hw
  have hf : s.fetch = .illegal w := by simp only [State.fetch, fetchAt, himem, hat, fetchedWord, hw]
  exact step_of_fetch_illegal hs hf

/-! ### Faults -/

section Fault
variable {s t : State}

/-- An instruction that ends Faulted where it began Running took its memory fault, with a true record (R106, R108). -/
theorem faulted_of_exec {i : Instr} {e : EngineException} (hs : s.status = .running) (hf : s.fetch = .instr i)
    (h : exec i s = .next t) (ht : t.status = .faulted e) : t = s.raise e ∧ s.recordTrue e := by
  cases effect_of_exec h with
  | loadFault hout =>
    cases ht
    exact ⟨rfl, rfl, hout, _, _, _, hf, rfl⟩
  | storeFault hout =>
    cases ht
    exact ⟨rfl, rfl, hout, _, _, _, hf, rfl⟩
  | arithmetic | load | store | jump | fallThrough | placeholder => cases hs.symm.trans ht

/-- The halt check neither makes nor undoes a fault (R110). -/
theorem haltCheck_of_faulted {e : EngineException} (h : s.haltCheck.status = .faulted e) : s.haltCheck = s := by
  rcases haltCheck_cases s with ⟨-, -, heq⟩ | ⟨-, heq⟩
  · rw [heq] at h
    cases h
  · exact heq

/-- A step that ends Faulted raised that exception and did nothing else, and the record is true (R106 to R108). -/
theorem faulted_of_step {e : EngineException} (h : step s = .next t) (ht : t.status = .faulted e) :
    t = s.raise e ∧ s.recordTrue e := by
  obtain ⟨hs, ⟨i, u, hf, hexec, rfl⟩ | ⟨w, hf, rfl⟩⟩ := step_cases h
  · have hkept := haltCheck_of_faulted ht
    rw [hkept] at ht ⊢
    exact faulted_of_exec hs hf hexec ht
  · cases ht
    exact ⟨rfl, rfl, hf⟩

/-- Taking an exception changes nothing that a record speaks of. -/
theorem recordTrue_raise (s : State) (e : EngineException) : (s.raise e).recordTrue e ↔ s.recordTrue e := by
  rcases e with ⟨p, ea, acc⟩ | ⟨p, w⟩
  · cases acc <;> rfl
  · rfl

end Fault

/-- Settles O23: `faulted_of_step`, read as it stands. -/
theorem faultsArePreciseAndTruthful : Obligations.FaultsArePreciseAndTruthful :=
  fun _ _ _ h ht => faulted_of_step h ht

/-! ### The flag byte -/

section FlagByte
variable {s t : State}

/-- A computed flag byte is a legal one unless it says both negative and zero (R28). -/
theorem legalFlags_flagByte {v n z : Bool} (h : ¬ (z = true ∧ n = true)) : legalFlags (flagByte v n z) = true := by
  revert h
  cases v <;> cases n <;> cases z <;> decide

theorem legalFlags_alu (op : AluOp) (a b : Word) : legalFlags (alu op a b).2 = true := by
  have hzn := alu_flags_not_z_and_n op a b
  rw [alu_flags, flagByte_z, flagByte_n] at hzn
  rw [alu_flags]
  exact legalFlags_flagByte hzn

/-- An instruction leaves the flag byte or replaces it by one that the ALU computed (R26). -/
theorem flags_of_exec {i : Instr} (h : exec i s = .next t) :
    t.flags = s.flags ∨ i.isArithmetic = true ∧ ∃ op a b, t.flags = (alu op a b).2 := by
  cases effect_of_exec h with
  | arithmetic hi op d a b => exact .inr ⟨hi, op, a, b, rfl⟩
  | load | loadFault | store | storeFault | jump | fallThrough | placeholder => exact .inl rfl

theorem legalFlags_of_step (hs : legalFlags s.flags = true) (h : step s = .next t) : legalFlags t.flags = true := by
  obtain ⟨-, ⟨i, u, -, hexec, rfl⟩ | ⟨w, -, rfl⟩⟩ := step_cases h
  · rw [haltCheck_flags]
    rcases flags_of_exec hexec with hsame | ⟨-, op, a, b, halu⟩
    · rwa [hsame]
    · rw [halu]
      exact legalFlags_alu op a b
  · exact hs

/-- Only the arithmetic instructions write the flags (R26, D11). -/
theorem flags_of_exec_of_not_isArithmetic {i : Instr} (hi : i.isArithmetic = false) (h : exec i s = .next t) :
    t.flags = s.flags :=
  (flags_of_exec h).resolve_right fun harith => absurd (hi.symm.trans harith.1) Bool.false_ne_true

end FlagByte

/-- Settles O18: launch clears the flags, and a step keeps them legal. -/
theorem flagByteHoldsSixValues : Obligations.FlagByteHoldsSixValues :=
  ⟨fun _ _ _ _ => rfl, fun _ _ hs h => legalFlags_of_step hs h⟩

/-- Settles O42: the frame of an instruction that is not arithmetic, which the halt check keeps. -/
theorem onlyArithmeticWritesFlags : Obligations.OnlyArithmeticWritesFlags := by
  refine ⟨fun i s t hi h => flags_of_exec_of_not_isArithmetic hi h, fun i s t hat hi h => ?_⟩
  obtain ⟨u, hexec, rfl⟩ := exec_of_step hat h
  rw [haltCheck_flags, flags_of_exec_of_not_isArithmetic hi hexec]

/-! ### Data memory along a step -/

section DataFrame
variable {s t : State} {i : Instr}

/-- An instruction leaves data memory, or writes the one cell at its store address, which is in range (R95). -/
theorem dmem_of_exec (h : exec i s = .next t) :
    t.dmem = s.dmem ∨
      ∃ ea v, i.storeAddr s = some ea ∧ ea.toNat < s.memSize ∧ t.dmem = writeCell s.dmem ea.toNat v := by
  cases effect_of_exec h with
  | store hin => exact .inr ⟨_, _, rfl, hin, rfl⟩
  | arithmetic | load | loadFault | storeFault | jump | fallThrough | placeholder => exact .inl rfl

/-- A cell that is not at the store address reads as before. -/
theorem cell_of_exec (h : exec i s = .next t) {c : Nat} (hc : ∀ ea, i.storeAddr s = some ea → c ≠ ea.toNat) :
    t.cell c = s.cell c := by
  rcases dmem_of_exec h with hsame | ⟨ea, v, hea, -, hwrite⟩
  · rw [State.cell, hsame, State.cell]
  · rw [State.cell, hwrite, readCell_writeCell, if_neg (hc ea hea), State.cell]

theorem cell_haltCheck (s : State) (c : Nat) : s.haltCheck.cell c = s.cell c := by
  rw [State.cell, haltCheck_dmem, State.cell]

/-- Every step leaves data memory or writes one cell of it. -/
theorem dmem_of_step (h : step s = .next t) :
    t.dmem = s.dmem ∨ ∃ a v, a < s.memSize ∧ t.dmem = writeCell s.dmem a v := by
  obtain ⟨-, ⟨i, u, -, hexec, rfl⟩ | ⟨w, -, rfl⟩⟩ := step_cases h
  · rw [haltCheck_dmem]
    exact (dmem_of_exec hexec).imp_right fun ⟨ea, v, _, hin, hwrite⟩ => ⟨ea.toNat, v, hin, hwrite⟩
  · exact .inl rfl

theorem cellsExist_iff (s : State) : s.cellsExist = true ↔ ∀ c ∈ s.dmem, c.1 < s.memSize := by
  simp [State.cellsExist]

theorem memCanonical_of_step (hs : Memory.wf s.dmem = true) (h : step s = .next t) : Memory.wf t.dmem = true := by
  rcases dmem_of_step h with hsame | ⟨a, v, -, hwrite⟩
  · rwa [hsame]
  · rw [hwrite]
    exact writeCell_wf _ _ _ hs

theorem cellsExist_of_step (hs : s.cellsExist = true) (h : step s = .next t) : t.cellsExist = true := by
  rw [cellsExist_iff] at hs ⊢
  rw [(step_keeps_parameters h).2]
  rcases dmem_of_step h with hsame | ⟨a, v, ha, hwrite⟩
  · rwa [hsame]
  · rw [hwrite]
    intro c hc
    rcases mem_writeCell _ _ _ _ hc with rfl | hc
    · exact ha
    · exact hs c hc

end DataFrame

/-- Settles O39: the memory frame of an instruction, which the halt check keeps. -/
theorem onlyTheStoredCellChanges : Obligations.OnlyTheStoredCellChanges := by
  refine ⟨fun i s t h c hc => cell_of_exec h hc, fun i s t hi h c hc => ?_⟩
  obtain ⟨u, hexec, rfl⟩ := exec_of_step hi h
  rw [cell_haltCheck, cell_of_exec hexec hc]

/-! ### The invariant -/

section Invariant
variable {s t : State}

theorem statusTrue_of_running (hs : s.status = .running) : s.statusTrue ↔ s.pc.toNat < s.imem.len := by
  rw [State.statusTrue, hs]

theorem statusTrue_of_halted (hs : s.status = .halted) : s.statusTrue ↔ s.imem.len ≤ s.pc.toNat := by
  rw [State.statusTrue, hs]

theorem statusTrue_of_faulted {e : EngineException} (hs : s.status = .faulted e) :
    s.statusTrue ↔ s.pc.toNat < s.imem.len ∧ s.recordTrue e := by
  rw [State.statusTrue, hs]

/-- After any step the status agrees with the state (R30): the halt check decides between Running and Halted, and a
fault stays at its instruction with a true record. -/
theorem statusTrue_of_step (h : step s = .next t) : t.statusTrue := by
  cases hstatus : t.status with
  | running =>
    rw [statusTrue_of_running hstatus]
    by_contra hge
    cases hstatus.symm.trans ((halted_iff_of_step h).mpr (Nat.not_lt.mp hge))
  | halted => exact (statusTrue_of_halted hstatus).mpr ((halted_iff_of_step h).mp hstatus)
  | faulted e =>
    rw [statusTrue_of_faulted hstatus]
    refine ⟨pc_lt_len_of_step_of_faulted h hstatus, ?_⟩
    obtain ⟨rfl, hrecord⟩ := faulted_of_step h hstatus
    exact (recordTrue_raise s e).mpr hrecord

theorem inv_of_step (hs : s.Inv) (h : step s = .next t) : t.Inv := by
  obtain ⟨himem, hsize⟩ := step_keeps_parameters h
  exact {
    memCanonical := memCanonical_of_step hs.memCanonical h
    cellsExist := cellsExist_of_step hs.cellsExist h
    memSizeOk := hsize ▸ hs.memSizeOk
    lenOk := himem ▸ hs.lenOk
    flagsLegal := legalFlags_of_step hs.flagsLegal h
    statusTrue := statusTrue_of_step h }

/-- Inside the program a Running engine has a next state (R31, R32): no instruction and no word stops the model. -/
theorem exists_step_of_running (hs : s.status = .running) (hlt : s.pc.toNat < s.imem.len) :
    ∃ t, step s = .next t := by
  rcases fetch_instr_or_illegal_iff.mpr hlt with ⟨i, hf⟩ | ⟨w, hf⟩
  · obtain ⟨u, hexec, -⟩ := exists_exec_effect i s
    exact ⟨_, step_of_exec hs hf hexec⟩
  · exact ⟨_, step_of_fetch_illegal hs hf⟩

end Invariant

/-- Settles O17: each part of the invariant is kept by the frame lemma of its field, and the status by the halt check
and the truth of the fault records. -/
theorem stepKeepsInvariant : Obligations.StepKeepsInvariant := fun _ _ hs h => inv_of_step hs h

/-- Settles O11: a stopped engine has no step, and under the invariant a Running one is inside the program. -/
theorem runningEngineAlwaysSteps : Obligations.RunningEngineAlwaysSteps := by
  refine fun s hs => ⟨fun ⟨t, h⟩ => (step_cases h).1, fun hrun => ?_⟩
  exact exists_step_of_running hrun ((statusTrue_of_running hrun).mp hs.statusTrue)

end Sys2Proof.Machine

/-! PROOFS. The statements of 40_arithmetic.md: the shared function `alu` and its overflow (R82 to R85), and the result
and frame of each arithmetic instruction (R86 to R92). -/

namespace Sys2Proof.Machine

/-! ### The shared function alu -/

section Alu
variable (op : AluOp) (a b : Word)

theorem flagByte_toNat (v n z : Bool) : (flagByte v n z).toNat = 4 * v.toNat + 2 * n.toNat + z.toNat := by
  cases v <;> cases n <;> cases z <;> rfl

/-- The wrapped sum and difference, of the unsigned values (R82). -/
theorem add_eq_wrap32_toNat : a + b = wrap32 (a.toNat + b.toNat) := by
  rw [wrap32_add, wrap32_toNat, wrap32_toNat]

theorem sub_eq_wrap32_toNat : a - b = wrap32 ((a.toNat : Int) - b.toNat) := by
  rw [wrap32_sub, wrap32_toNat, wrap32_toNat]

/-- The wrapped sum and difference, of the signed values (R86, R87). -/
theorem add_eq_wrap32_toInt : a + b = wrap32 (a.toInt + b.toInt) := by
  rw [wrap32_add, wrap32_toInt, wrap32_toInt]

theorem sub_eq_wrap32_toInt : a - b = wrap32 (a.toInt - b.toInt) := by
  rw [wrap32_sub, wrap32_toInt, wrap32_toInt]

/-- The sign bit as the number that the flag byte weighs. -/
theorem msb_toNat (r : Word) : r.msb.toNat = r.toNat / 2 ^ 31 := by
  have hlt := r.isLt
  rw [BitVec.msb_eq_decide]
  by_cases h : 2 ^ 31 ≤ r.toNat
  · rw [decide_eq_true (by simpa using h), Bool.toNat_true]
    omega
  · rw [decide_eq_false (by simpa using h), Bool.toNat_false]
    omega

/-- The flag byte as a number, V weighing 4, N 2 and Z 1 (R25, R82). -/
theorem alu_flags_toNat :
    (alu op a b).2.toNat = 4 * (op.overflow a b).toNat + 2 * ((alu op a b).1.toNat / 2 ^ 31) +
      if (alu op a b).1 = 0 then 1 else 0 := by
  rw [alu_flags, flagByte_toNat, msb_toNat, alu_result]
  simp only [Bool.toNat, Bool.cond_eq_ite, beq_iff_eq]

/-- The range test as a number. -/
theorem outOfRange_toNat (n : Int) : (outOfRange n).toNat = if n < -2 ^ 31 ∨ 2 ^ 31 ≤ n then 1 else 0 := by
  simp only [outOfRange, Bool.toNat, Bool.cond_decide]

/-- The range test, with the bounds of the signed range as R83 writes them. -/
theorem outOfRange_iff_not_mem (n : Int) : outOfRange n = true ↔ ¬ (-2 ^ 31 ≤ n ∧ n ≤ 2 ^ 31 - 1) := by
  rw [outOfRange_iff]
  omega

end Alu

/-- Settles O25: the three operations of `alu`, the arithmetic instructions as uses of it, and the flag byte they
replace unread. -/
theorem aluAsSpecified : Obligations.AluAsSpecified := by
  refine ⟨fun op a b => ⟨?_, ?_⟩, fun t l r b s i hi => ?_, fun i s f hi => exec_writeFlags_of_isArithmetic f hi⟩
  · cases op with
    | add => exact add_eq_wrap32_toNat a b
    | sub => exact sub_eq_wrap32_toNat a b
    | xor => rfl
  · rw [alu_flags_toNat]
    cases op with
    | add => rw [AluOp.overflow, ovfAdd, outOfRange_toNat]
    | sub => rw [AluOp.overflow, ovfSub, outOfRange_toNat]
    | xor => rfl
  · simp only [List.mem_cons, List.not_mem_nil, or_false] at hi
    obtain rfl | rfl | rfl | rfl | rfl := hi
    all_goals exact ⟨_, rfl, by rw [readReg_aluWrite, if_pos rfl], rfl⟩

/-! ### Overflow -/

section Overflow
variable (a b : Word)

theorem ovfAdd_eq_saddOverflow : ovfAdd a b = a.saddOverflow b := by
  simp [ovfAdd, outOfRange, BitVec.saddOverflow, or_comm]

theorem ovfSub_eq_ssubOverflow : ovfSub a b = a.ssubOverflow b := by
  simp [ovfSub, outOfRange, BitVec.ssubOverflow, or_comm]

/-- The library's sign bits of an overflowing difference, as R84 says them. -/
theorem ssubOverflow_bits : ∀ p q r : Bool, (!p && q && r || p && !q && !r) = true ↔ p ≠ q ∧ r ≠ p := by decide

end Overflow

/-- Settles O26: the range tests are the library's signed overflow, which it gives by the sign bits. -/
theorem overflowInBits : Obligations.OverflowInBits := by
  refine ⟨fun a b => ?_, fun a b => ?_⟩
  · rw [ovfAdd_eq_saddOverflow, BitVec.saddOverflow_eq]
    simp only [msb_eq_bit31, Bool.and_eq_true, beq_iff_eq, Bool.not_eq_true', beq_eq_false_iff_ne]
  · rw [ovfSub_eq_ssubOverflow, BitVec.ssubOverflow_eq]
    simp only [msb_eq_bit31, ssubOverflow_bits]

/-! ### The arithmetic instructions -/

section Results
variable (s : State) (op : AluOp) (d : Reg) (a b : Word)

/-- The frame of the shared arithmetic body: only its destination (R92). -/
theorem onlyWrites_aluWrite : s.onlyWrites (s.aluWrite op d a b) [d] [] := by
  refine ⟨fun k hk => ?_, fun _ _ => rfl, rfl, rfl, rfl⟩
  rw [readReg_aluWrite, if_neg (by simpa using hk)]

theorem readReg_aluWrite_same : (s.aluWrite op d a b).readReg d = op.result a b := by
  rw [readReg_aluWrite, if_pos rfl, alu_result]

/-- The flag byte says of the wrapped result what R25 has it say, V being the operation's overflow. -/
theorem flagsSay_alu {overflowed : Prop} (h : op.overflow a b = true ↔ overflowed) :
    flagsSay (alu op a b).2 overflowed (op.result a b) := by
  refine ⟨?_, alu_flags_n_iff_neg op a b, alu_flags_z_iff op a b, ?_⟩
  · rw [alu_flags, flagByte_v, h]
  · rw [alu_flags]
    exact flagByte_lt _ _ _

/-- What the body of an arithmetic instruction leaves: the flags it says of its result, the next address, its frame. -/
theorem aluWrite_spec {overflowed : Prop} (h : op.overflow a b = true ↔ overflowed) :
    flagsSay (s.aluWrite op d a b).flags overflowed ((s.aluWrite op d a b).readReg d) ∧
      (s.aluWrite op d a b).pc = s.pc + 1 ∧ s.onlyWrites (s.aluWrite op d a b) [d] [] := by
  rw [readReg_aluWrite_same, aluWrite_flags]
  exact ⟨flagsSay_alu op a b h, rfl, onlyWrites_aluWrite s op d a b⟩

/-- The shared body with the addition: the wrapped signed sum, V when it is out of range (R83). -/
theorem aluWrite_add_spec :
    (s.aluWrite .add d a b).readReg d = wrap32 (a.toInt + b.toInt) ∧
      flagsSay (s.aluWrite .add d a b).flags (¬ (-2 ^ 31 ≤ a.toInt + b.toInt ∧ a.toInt + b.toInt ≤ 2 ^ 31 - 1))
        ((s.aluWrite .add d a b).readReg d) ∧
      (s.aluWrite .add d a b).pc = s.pc + 1 ∧ s.onlyWrites (s.aluWrite .add d a b) [d] [] :=
  ⟨(readReg_aluWrite_same s .add d a b).trans (add_eq_wrap32_toInt a b),
    aluWrite_spec s .add d a b (outOfRange_iff_not_mem _)⟩

/-- The shared body with the subtraction: the wrapped signed difference, V when it is out of range (R84). -/
theorem aluWrite_sub_spec :
    (s.aluWrite .sub d a b).readReg d = wrap32 (a.toInt - b.toInt) ∧
      flagsSay (s.aluWrite .sub d a b).flags (¬ (-2 ^ 31 ≤ a.toInt - b.toInt ∧ a.toInt - b.toInt ≤ 2 ^ 31 - 1))
        ((s.aluWrite .sub d a b).readReg d) ∧
      (s.aluWrite .sub d a b).pc = s.pc + 1 ∧ s.onlyWrites (s.aluWrite .sub d a b) [d] [] :=
  ⟨(readReg_aluWrite_same s .sub d a b).trans (sub_eq_wrap32_toInt a b),
    aluWrite_spec s .sub d a b (outOfRange_iff_not_mem _)⟩

end Results

/-- Settles O28: the shared body with the two source registers. -/
theorem addResult : Obligations.AddResult :=
  fun t l r s => ⟨_, rfl, aluWrite_add_spec s t (s.readReg l) (s.readReg r)⟩

/-- Settles O29: the shared body, the left register first (D12). -/
theorem subResult : Obligations.SubResult :=
  fun t l r s => ⟨_, rfl, aluWrite_sub_spec s t (s.readReg l) (s.readReg r)⟩

/-- Settles O30: the exclusive-or is taken bit by bit and never overflows. -/
theorem xorResult : Obligations.XorResult := by
  intro t l r s
  refine ⟨_, rfl, fun k => ?_, aluWrite_spec s .xor t (s.readReg l) (s.readReg r) (by simp [AluOp.overflow])⟩
  rw [readReg_aluWrite_same, AluOp.result, BitVec.getLsbD_xor]

/-- Settles O31: the right operand is the sign-extended immediate, whose value is the immediate's. -/
theorem addqResult : Obligations.AddqResult := by
  intro t l imm s
  rw [← toInt_sext32 imm]
  exact ⟨_, rfl, aluWrite_add_spec s t (s.readReg l) (sext32 imm)⟩

/-- Settles O32: as for `addq`, with the difference, left minus right (D12). -/
theorem subqResult : Obligations.SubqResult := by
  intro t l imm s
  rw [← toInt_sext32 imm]
  exact ⟨_, rfl, aluWrite_sub_spec s t (s.readReg l) (sext32 imm)⟩

end Sys2Proof.Machine

/-! PROOFS. The statements of 20_memory.md and 41_memory_access.md: the effective address (R93), the load and the store
(R94, R95), the memory primitives (R39) and the canonical form of data memory. -/

namespace Sys2Proof.Machine

/-! ### The effective address -/

/-- Settles O33: the wrapped sum, read as unsigned. -/
theorem effectiveAddressWraps : Obligations.EffectiveAddressWraps := by
  intro s a off
  rw [State.effAddr, add_sext32, toNat_wrap32]

/-! ### Completing and faulting -/

section Access
variable {s t : State}

/-- An instruction that completes advances the program counter, so it did not raise an exception. -/
theorem advancePc_ne_faulted (h : t.pc = s.pc) (e : EngineException) :
    t.advancePc ≠ { s with status := .faulted e } := by
  intro heq
  have hpc : t.pc + 1 = s.pc := congrArg State.pc heq
  rw [h] at hpc
  exact absurd hpc (by simp)

end Access

/-- Settles O24: out of range the access faults, and in range it completes, which is another state. -/
theorem outOfRangeAccessFaults : Obligations.OutOfRangeAccessFaults := by
  intro s v a off
  refine ⟨⟨fun hout => exec_ldq_of_le v hout, fun h => ?_⟩, ⟨fun hout => exec_stq_of_le v hout, fun h => ?_⟩⟩
  · by_contra hin
    rw [exec_ldq_of_lt v (Nat.not_le.mp hin)] at h
    exact advancePc_ne_faulted (writeReg_pc s v _) _ (Host.Outcome.next.inj h)
  · by_contra hin
    rw [exec_stq_of_lt v (Nat.not_le.mp hin)] at h
    exact advancePc_ne_faulted (setCell_pc s _ _) _ (Host.Outcome.next.inj h)

/-- Settles O34: the completed load, read field by field. -/
theorem ldqResult : Obligations.LdqResult := by
  intro v a off s hin
  refine ⟨_, exec_ldq_of_lt v hin, ?_, rfl, rfl, fun k hk => ?_, fun _ _ => rfl, rfl, rfl, rfl⟩
  · rw [readReg_advancePc, readReg_writeReg, if_pos rfl]
  · rw [readReg_advancePc, readReg_writeReg, if_neg (by simpa using hk)]

/-- Settles O35: the completed store, read field by field. -/
theorem stqResult : Obligations.StqResult := by
  intro v a off s hin
  refine ⟨_, exec_stq_of_lt v hin, ?_, rfl, rfl, fun _ _ => rfl, fun c hc => ?_, rfl, rfl, rfl⟩
  · rw [cell_advancePc, cell_setCell, if_pos rfl]
  · rw [cell_advancePc, cell_setCell, if_neg (by simpa using hc)]

/-- Settles O36: the load reads the cell that the store left, which the write law gives. -/
theorem loadAfterStore : Obligations.LoadAfterStore := by
  intro v a v' a' off off' s t u hstore hload ht hu
  cases (exec_stq_of_lt v hstore).symm.trans ht
  rw [(exec_ldq_copies_cell hu).2 hload, cell_advancePc, cell_setCell]
  simp only [BitVec.toNat_inj]

/-! ### The memory primitives -/

section Primitives
variable {s : State} {a : Word}

theorem memRead_of_lt (h : a.toNat < s.memSize) : s.memRead a = .ok (s.cell a.toNat) :=
  (memRead_cases s a).elim And.right fun hc => absurd h (Nat.not_lt.mpr hc.1)

theorem memRead_of_le (h : s.memSize ≤ a.toNat) : s.memRead a = .error (.memoryFault s.pc a .read) :=
  (memRead_cases s a).elim (fun hc => absurd hc.1 (Nat.not_lt.mpr h)) And.right

theorem memWrite_of_lt (v : Word) (h : a.toNat < s.memSize) : s.memWrite a v = .ok (s.setCell a.toNat v) :=
  (memWrite_cases s a v).elim And.right fun hc => absurd h (Nat.not_lt.mpr hc.1)

theorem memWrite_of_le (v : Word) (h : s.memSize ≤ a.toNat) :
    s.memWrite a v = .error (.memoryFault s.pc a .write) :=
  (memWrite_cases s a v).elim (fun hc => absurd hc.1 (Nat.not_lt.mpr h)) And.right

/-- A write to one address leaves what a read of another answers. -/
theorem memRead_setCell_of_ne {b : Word} (h : b ≠ a) (v : Word) :
    (s.setCell a.toNat v).memRead b = s.memRead b := by
  have hcell : (s.setCell a.toNat v).cell b.toNat = s.cell b.toNat := by
    rw [cell_setCell, if_neg (mt BitVec.toNat_inj.mp h)]
  rw [State.memRead, hcell, setCell_memSize, setCell_pc, State.memRead]

end Primitives

/-- Settles O37: the bounds check of both primitives, and the write law of a cell. -/
theorem memoryPrimitives : Obligations.MemoryPrimitives := by
  intro s a v
  refine ⟨fun hin => ⟨_, memWrite_of_lt v hin, ?_, fun b hb => memRead_setCell_of_ne hb v⟩,
    fun hout => ⟨memRead_of_le hout, memWrite_of_le v hout⟩⟩
  rw [memRead_of_lt (s := s.setCell a.toNat v) hin, cell_setCell, if_pos rfl]

/-! ### The canonical form -/

section Canonical
variable {m : Memory}

/-- A cell that is not listed reads as an unlisted one. -/
theorem readCell_of_notMem {a : Nat} (h : ∀ c ∈ m, c.1 ≠ a) : readCell m a = unlistedCell := by
  induction m with
  | nil => rfl
  | cons c m ih =>
    rw [readCell, if_neg (h c List.mem_cons_self), ih fun d hd => h d (List.mem_cons_of_mem c hd)]

/-- A listed cell of a sorted memory reads as the list says. -/
theorem readCell_of_mem (hm : m.Pairwise fun c d => c.1 < d.1) {c : Nat × Word} (hc : c ∈ m) :
    readCell m c.1 = c.2 := by
  induction m with
  | nil => cases hc
  | cons d m ih =>
    obtain ⟨hd, hm⟩ := List.pairwise_cons.mp hm
    rcases List.mem_cons.mp hc with rfl | hc
    · rw [readCell, if_pos rfl]
    · rw [readCell, if_neg (hd c hc).ne, ih hm hc]

/-- A canonical memory lists exactly the cells that do not read as an unlisted one. -/
theorem mem_iff_readCell (h : Memory.wf m = true) (c : Nat × Word) :
    c ∈ m ↔ readCell m c.1 = c.2 ∧ c.2 ≠ unlistedCell := by
  obtain ⟨hsorted, hne⟩ := (wf_iff m).mp h
  refine ⟨fun hc => ⟨readCell_of_mem hsorted hc, hne c hc⟩, fun ⟨hread, hc⟩ => ?_⟩
  by_contra hnot
  obtain ⟨d, hd, hindex⟩ : ∃ d ∈ m, d.1 = c.1 := by
    by_contra hall
    push Not at hall
    exact hc (hread.symm.trans (readCell_of_notMem hall))
  have hvalue : d.2 = c.2 := by rw [← readCell_of_mem hsorted hd, hindex, hread]
  exact hnot (Prod.ext hindex hvalue ▸ hd)

end Canonical

/-- Settles O40: the cells a canonical memory lists are determined by what it reads as, and so is their order. -/
theorem canonicalMemoryIsUnique : Obligations.CanonicalMemoryIsUnique := by
  intro m m' hm hm' hread
  have : Std.Irrefl fun c d : Nat × Word => c.1 < d.1 := ⟨fun c => lt_irrefl c.1⟩
  have : Std.Antisymm fun c d : Nat × Word => c.1 < d.1 := ⟨fun c d h h' => absurd h' (lt_asymm h)⟩
  refine ((wf_iff m).mp hm).1.eq_of_mem_iff ((wf_iff m').mp hm').1 fun c => ?_
  rw [mem_iff_readCell hm, mem_iff_readCell hm', hread]

end Sys2Proof.Machine

/-! PROOFS. The statements of 42_control.md: the condition and the target of a branch (R98 to R101), and the
placeholder (R103). -/

namespace Sys2Proof.Machine

/-! ### The condition -/

section Condition
variable (mask : Mask) (f : Byte)

/-- The branch is taken exactly when its selector equals whether some selected flag is set (R98). -/
theorem taken_iff :
    taken mask f = true ↔
      (mask[3] = true ↔ ∃ k : Fin 3, mask[k.val]'(by omega) = true ∧ f[k.val]'(by omega) = true) := by
  rw [taken, beq_iff_eq, Bool.eq_iff_iff]
  simp only [Bool.or_eq_true, Bool.and_eq_true, Fin.exists_fin_succ, IsEmpty.exists_iff, or_false,
    Fin.val_zero, Fin.val_succ, zero_add, Nat.reduceAdd]
  tauto

end Condition

/-! ### What a branch does -/

section Target
variable (s : State)

/-- The next address, wrapped (R24). -/
theorem succ_pc_eq_wrap32 : s.pc + 1 = wrap32 (s.pc.toNat + 1) := by
  rw [wrap32_add, wrap32_toNat]
  rfl

theorem onlyWrites_setPc (p : Word) : s.onlyWrites (s.setPc p) [] [] :=
  ⟨fun _ _ => rfl, fun _ _ => rfl, rfl, rfl, rfl⟩

/-- A branch sets the program counter to the wrapped target or the next address, and nothing else (R100, R101). -/
theorem exec_brq (mask : Mask) (off : Byte) :
    exec (.brq mask off) s =
      .next (s.setPc (wrap32 (s.pc.toNat + if taken mask s.flags = true then off.toInt else 1))) := by
  by_cases h : taken mask s.flags = true
  · rw [exec_brq_of_taken off h, if_pos h, branchTarget_eq_wrap32]
  · rw [exec_brq_of_not_taken off h, if_neg h, State.advancePc, succ_pc_eq_wrap32]

end Target

/-- Settles O44: the condition bit by bit, and the branch's one write. -/
theorem branchCondition : Obligations.BranchCondition := by
  refine fun mask off s => ⟨taken_iff mask s.flags, fun h => ?_, fun h => ?_⟩
  · rw [exec_brq, if_pos h, State.setPc]
  · rw [exec_brq, if_neg (Bool.eq_false_iff.mp h), State.setPc]

/-- Settles O45: the branch's one write, its program counter read as unsigned. -/
theorem brqResult : Obligations.BrqResult :=
  fun mask off s => ⟨_, exec_brq s mask off, toNat_wrap32 _, rfl, onlyWrites_setPc s _⟩

/-- Settles O46: the placeholder only sets the program counter. -/
theorem noopResult : Obligations.NoopResult :=
  fun s => ⟨_, exec_noop s, rfl, rfl, rfl, onlyWrites_setPc s _⟩

/-! ### Branches below address 0 and to themselves -/

section Loops
variable {s : State}

theorem haltCheck_of_lt (h : s.pc.toNat < s.imem.len) : s.haltCheck = s :=
  if_neg fun hc => absurd h (Nat.not_lt.mpr hc.2)

/-- A taken branch at the program counter: the step goes to the target and makes the halt check (R100, R31). -/
theorem step_of_taken {mask : Mask} {off : Byte} (hs : s.status = .running) (hi : s.instrAtPc (.brq mask off))
    (h : taken mask s.flags = true) : step s = .next (s.setPc (s.branchTarget off)).haltCheck :=
  step_of_exec hs (fetch_of_instrAtPc hi) (exec_brq_of_taken off h)

/-- An instruction at the program counter is inside the program. -/
theorem pc_lt_len_of_instrAtPc {i : Instr} (hi : s.instrAtPc i) : s.pc.toNat < s.imem.len :=
  fetch_instr_or_illegal_iff.mp (.inl ⟨i, fetch_of_instrAtPc hi⟩)

/-- A branch below address 0 lands 2^32 higher, since its offset is at least -128 (R101). -/
theorem toNat_branchTarget_of_neg {off : Byte} (h : (s.pc.toNat : Int) + off.toInt < 0) :
    ((s.branchTarget off).toNat : Int) = 2 ^ 32 + s.pc.toNat + off.toInt := by
  have hoff : -128 ≤ off.toInt := BitVec.le_toInt off
  rw [branchTarget_eq_wrap32, toNat_wrap32]
  omega

/-- That is at or beyond the end of every admitted program (R101, D1). -/
theorem len_le_branchTarget_of_neg {off : Byte} (hlen : s.imem.lenOk = true)
    (h : (s.pc.toNat : Int) + off.toInt < 0) : s.imem.len ≤ (s.branchTarget off).toNat := by
  have hoff : -128 ≤ off.toInt := BitVec.le_toInt off
  have hbound : s.imem.len < 2 ^ 32 - 128 := of_decide_eq_true hlen
  have htarget := toNat_branchTarget_of_neg h
  omega

theorem branchTarget_zero (s : State) : s.branchTarget 0 = s.pc := BitVec.add_zero s.pc

/-- A state that a step does not change runs for ever (R33). -/
theorem runFor_of_step_self (hs : s.status = .running) (h : step s = .next s) (k : Nat) :
    runFor k s = .notFinished s := by
  induction k with
  | zero => simp only [runFor, hs]
  | succ k ih => simp only [runFor, hs, h, ih]

end Loops

/-- Settles O47: the wrapped target is outside the program, where the halt check halts. -/
theorem branchBelowZeroHalts : Obligations.BranchBelowZeroHalts := by
  intro s mask off hlen hs hi htaken hneg
  refine ⟨_, step_of_taken hs hi htaken, ?_, ?_⟩
  · exact haltCheck_status_of_le hs (len_le_branchTarget_of_neg hlen hneg)
  · rw [haltCheck_pc, setPc_pc, toNat_branchTarget_of_neg hneg]

/-- Settles O48: the target is the branch's own address, which is inside the program. -/
theorem branchToSelfNeverEnds : Obligations.BranchToSelfNeverEnds := by
  intro s mask hs hi htaken
  have hself : step s = .next s := by
    rw [step_of_taken hs hi htaken, branchTarget_zero]
    exact congrArg _ (haltCheck_of_lt (pc_lt_len_of_instrAtPc hi))
  exact ⟨hself, runFor_of_step_self hs hself⟩

end Sys2Proof.Machine

/-! PROOFS. The statements of 70_reset_and_hazards.md and of a run: the launch state (R122, R123), that launch
establishes the invariant, and how a run under a budget ends (R33, R133). -/

namespace Sys2Proof.Machine

/-! ### The launch state -/

section Launch

/-- Of two seeds for one key the first counts (log 19). -/
theorem lookup_cons_getD {α : Type} [BEq α] [LawfulBEq α] [DecidableEq α] (k : α) (c : α × Word)
    (seeds : List (α × Word)) :
    ((c :: seeds).lookup k).getD 0 = if k = c.1 then c.2 else (seeds.lookup k).getD 0 := by
  rw [← Prod.mk.eta (p := c), List.lookup_cons]
  by_cases h : k = c.1
  · rw [beq_iff_eq.mpr h, if_pos h, Option.getD_some]
  · rw [beq_eq_false_iff_ne.mpr h, if_neg h]

/-- A register of the seeded file holds its first seed, or 0 (R122, D3). -/
theorem getElem_seedRegs (regs : List (Reg × Word)) (k : Reg) :
    (seedRegs regs)[k.toNat]'k.isLt = (regs.lookup k).getD 0 := by
  induction regs with
  | nil => simp [seedRegs]
  | cons c regs ih =>
    simp only [seedRegs, Vector.getElem_set, BitVec.toNat_inj, ih, lookup_cons_getD, eq_comm]

/-- A cell of the seeded memory holds its first seed, or 0; a cell outside data memory is not seeded (R122, log 19). -/
theorem readCell_seedMemory (n : Nat) (mem : List (Nat × Word)) (a : Nat) :
    readCell (seedMemory n mem) a = if a < n then (mem.lookup a).getD 0 else 0 := by
  induction mem with
  | nil => simp [seedMemory, readCell, unlistedCell]
  | cons c mem ih =>
    rw [lookup_cons_getD, seedMemory]
    by_cases ha : a = c.1
    · subst ha
      split
      · rw [readCell_writeCell, if_pos rfl, if_pos rfl]
      · next hout => rw [ih, if_neg hout]
    · rw [if_neg ha]
      split
      · rw [readCell_writeCell, if_neg ha, ih]
      · exact ih

end Launch

/-- Settles O20: the seeded registers and cells, the other fields being as `launch` writes them. -/
theorem launchState : Obligations.LaunchState :=
  fun _ n regs mem => ⟨getElem_seedRegs regs, rfl, rfl, readCell_seedMemory n mem, rfl, rfl, rfl⟩

/-- Settles O21: the two states agree in every field. -/
theorem resetIsLaunchOfEmptyProgram : Obligations.ResetIsLaunchOfEmptyProgram := rfl

/-! ### The invariant at launch -/

section LaunchInvariant

/-- Launch makes the halt check of a step: Running exactly if there is a first instruction (R123). -/
theorem statusTrue_launch (p : Program) (n : Nat) (regs : List (Reg × Word)) (mem : List (Nat × Word)) :
    (launch p n regs mem).statusTrue := by
  by_cases h : 0 < p.len
  · exact (statusTrue_of_running (if_pos h)).mpr h
  · exact (statusTrue_of_halted (if_neg h)).mpr (Nat.not_lt.mp h)

theorem inv_launch {p : Program} (hp : p.lenOk = true) {n : Nat} (hn : memSizeOk n = true) (regs : List (Reg × Word))
    (mem : List (Nat × Word)) : (launch p n regs mem).Inv where
  memCanonical := (seedMemory_wf n mem).1
  cellsExist := (cellsExist_iff _).mpr (seedMemory_wf n mem).2
  memSizeOk := hn
  lenOk := hp
  flagsLegal := rfl
  statusTrue := statusTrue_launch p n regs mem

end LaunchInvariant

/-- Settles O16: the seeded memory is canonical, and the status agrees with the length of the program. -/
theorem launchMeetsInvariant : Obligations.LaunchMeetsInvariant :=
  fun _ _ regs mem hp hn => inv_launch hp hn regs mem

/-- Settles O15: reset is an admitted launch. -/
theorem resetMeetsInvariant : Obligations.ResetMeetsInvariant := by
  unfold Obligations.ResetMeetsInvariant
  rw [resetIsLaunchOfEmptyProgram]
  exact inv_launch (by decide) (by decide) [] []

/-! ### Runs -/

section Run
variable {s t : State}

theorem runFor_zero_of_running (hs : s.status = .running) : runFor 0 s = .notFinished s := by
  simp only [runFor, hs]

/-- A Running engine spends one step of its budget and runs on from there (R33). -/
theorem runFor_succ_of_step (h : step s = .next t) (k : Nat) : runFor (k + 1) s = runFor k t := by
  simp only [runFor, (step_cases h).1, h]

end Run

/-- Settles O19: by induction on the budget, a Running state of the invariant having a next one and every step keeping
the invariant. -/
theorem runEndsInAStateOfTheInvariant : Obligations.RunEndsInAStateOfTheInvariant := by
  intro s hs k
  induction k using Nat.strong_induction_on generalizing s with
  | _ k ih =>
    cases hstatus : s.status with
    | halted => exact .inl ⟨s, runFor_of_halted hstatus k, hs, hstatus⟩
    | faulted e => exact .inr (.inl ⟨e, s, runFor_of_faulted hstatus k, hs, hstatus⟩)
    | running =>
      cases k with
      | zero => exact .inr (.inr ⟨s, runFor_zero_of_running hstatus, hs, hstatus⟩)
      | succ k =>
        obtain ⟨t, h⟩ := exists_step_of_running hstatus ((statusTrue_of_running hstatus).mp hs.statusTrue)
        rw [runFor_succ_of_step h]
        exact ih k k.lt_succ_self t (inv_of_step hs h)

end Sys2Proof.Machine

/-! PROOFS. The two paths of the engine (R15) and the listing (R69 to R71): the word image loses nothing of a program
that has one. -/

namespace Sys2Proof.Machine

/-! ### The word image -/

section Image
variable {s t : State}

/-- Decoding the word of an encodable instruction gives the instruction (R67). -/
theorem decode_wordOrZero {i : Instr} (h : i.encodable = true) : decode (wordOrZero i) = .ok i := by
  obtain ⟨w, hw⟩ := (encodable_iff i).mp h
  rw [wordOrZero, hw]
  exact decode_of_encode hw

/-- Fetching from the word image answers what fetching from the program does (R15). -/
theorem fetchAt_imageOf {p : Program} (h : p.hasWordImage = true) (k : Nat) :
    fetchAt (.words (imageOf p)) k = fetchAt p k := by
  cases p with
  | words image => rfl
  | values instrs =>
    have hall : ∀ i ∈ instrs, i.encodable = true := List.all_eq_true.mp h
    simp only [fetchAt, imageOf, List.getElem?_map]
    cases hat : instrs[k]? with
    | none => rfl
    | some i =>
      have hdecode := decode_wordOrZero (hall i (List.mem_of_getElem? hat))
      simp only [Option.map_some, fetchedWord, hdecode]

theorem len_imageOf (p : Program) : (Program.words (imageOf p)).len = p.len := by
  cases p with
  | words image => rfl
  | values instrs => exact List.length_map _

/-! ### The simulation -/

/-- An instruction carries the program through, whatever it is. -/
theorem exec_withProgram {i : Instr} (p : Program) (h : exec i s = .next t) :
    exec i { s with imem := p } = .next { t with imem := p } := by
  rcases instr_forms i with hi | ⟨v, a, off, rfl⟩ | ⟨v, a, off, rfl⟩ | ⟨mask, off, rfl⟩ | rfl
  · obtain ⟨op, d, a, b, -, hexec, hoperands⟩ := exec_of_isArithmetic hi
    obtain ⟨ha, hb⟩ := hoperands s { s with imem := p } fun _ _ => rfl
    cases (hexec s).symm.trans h
    rw [hexec, ha, hb]
    rfl
  · rcases lt_or_ge (s.effAddr a off).toNat s.memSize with hin | hout
    · cases (exec_ldq_of_lt v hin).symm.trans h
      exact exec_ldq_of_lt (s := { s with imem := p }) v hin
    · cases (exec_ldq_of_le v hout).symm.trans h
      exact exec_ldq_of_le (s := { s with imem := p }) v hout
  · rcases lt_or_ge (s.effAddr a off).toNat s.memSize with hin | hout
    · cases (exec_stq_of_lt v hin).symm.trans h
      exact exec_stq_of_lt (s := { s with imem := p }) v hin
    · cases (exec_stq_of_le v hout).symm.trans h
      exact exec_stq_of_le (s := { s with imem := p }) v hout
  · cases (exec_brq s mask off).symm.trans h
    exact exec_brq { s with imem := p } mask off
  · cases (exec_noop s).symm.trans h
    rfl

theorem exec_inWordPath {i : Instr} (h : exec i s = .next t) : exec i s.inWordPath = .next t.inWordPath := by
  rw [State.inWordPath, State.inWordPath, (exec_keeps_parameters h).1]
  exact exec_withProgram _ h

/-- The halt check reads the length of the program, which its word image keeps. -/
theorem haltCheck_inWordPath (s : State) : s.inWordPath.haltCheck = s.haltCheck.inWordPath := by
  have hlen : s.inWordPath.imem.len = s.imem.len := len_imageOf s.imem
  by_cases h : s.status = .running ∧ s.imem.len ≤ s.pc.toNat
  · have h' : s.inWordPath.status = .running ∧ s.inWordPath.imem.len ≤ s.inWordPath.pc.toNat := ⟨h.1, hlen ▸ h.2⟩
    rw [State.haltCheck, if_pos h', State.haltCheck, if_pos h]
    rfl
  · have h' : ¬ (s.inWordPath.status = .running ∧ s.inWordPath.imem.len ≤ s.inWordPath.pc.toNat) :=
      fun hc => h ⟨hc.1, hlen ▸ hc.2⟩
    rw [State.haltCheck, if_neg h', State.haltCheck, if_neg h]

/-- A fetch in the word path answers what it answers in the value path. -/
theorem fetch_inWordPath (h : s.imem.hasWordImage = true) : s.inWordPath.fetch = s.fetch :=
  fetchAt_imageOf h s.pc.toNat

/-- The commuting square of a step (R15). -/
theorem step_inWordPath (himage : s.imem.hasWordImage = true) (h : step s = .next t) :
    step s.inWordPath = .next t.inWordPath := by
  obtain ⟨hs, ⟨i, u, hf, hexec, rfl⟩ | ⟨w, hf, rfl⟩⟩ := step_cases h
  · have hf' := (fetch_inWordPath himage).trans hf
    rw [step_of_exec (s := s.inWordPath) hs hf' (exec_inWordPath hexec), haltCheck_inWordPath]
  · exact step_of_fetch_illegal (s := s.inWordPath) hs ((fetch_inWordPath himage).trans hf)

/-- A Running engine outside its program has no next state (R36). -/
theorem step_of_beyond (hs : s.status = .running) (h : s.imem.len ≤ s.pc.toNat) : step s = .fault .beyondProgram := by
  simp only [step, hs, (fetch_beyond_iff s).mpr h]

theorem runFor_succ_of_beyond (hs : s.status = .running) (h : s.imem.len ≤ s.pc.toNat) (k : Nat) :
    runFor (k + 1) s = .stuck s := by
  simp only [runFor, hs, step_of_beyond hs h]

end Image

/-- Settles O49: by induction on the budget, over the commuting square of a step; the run decides on the status, which
the word path keeps. -/
theorem wordPathAgreesWithValuePath : Obligations.WordPathAgreesWithValuePath := by
  intro s himage k
  induction k using Nat.strong_induction_on generalizing s with
  | _ k ih =>
    cases hs : s.status with
    | halted => rw [runFor_of_halted hs, runFor_of_halted (s := s.inWordPath) hs, RunResult.inWordPath]
    | faulted e => rw [runFor_of_faulted hs, runFor_of_faulted (s := s.inWordPath) hs, RunResult.inWordPath]
    | running =>
      cases k with
      | zero => rw [runFor_zero_of_running hs, runFor_zero_of_running (s := s.inWordPath) hs, RunResult.inWordPath]
      | succ k =>
        rcases lt_or_ge s.pc.toNat s.imem.len with hlt | hge
        · obtain ⟨t, h⟩ := exists_step_of_running hs hlt
          rw [runFor_succ_of_step h, runFor_succ_of_step (step_inWordPath himage h)]
          exact ih k k.lt_succ_self t ((step_keeps_parameters h).1 ▸ himage)
        · have hge' : s.inWordPath.imem.len ≤ s.inWordPath.pc.toNat := (len_imageOf s.imem).trans_le hge
          rw [runFor_succ_of_beyond hs hge, runFor_succ_of_beyond (s := s.inWordPath) hs hge', RunResult.inWordPath]

/-! ### The listing of a program -/

section Encode
variable {p : List Instr} {image : List Word} {k : Nat}

theorem encode_eq_error_iff (i : Instr) : (∃ e, encode i = .error e) ↔ i = .noop := by
  cases i with
  | noop => exact ⟨fun _ => rfl, fun _ => ⟨_, rfl⟩⟩
  | add | sub | xor | addq | subq | ldq | stq | brq => simp [encode]

/-- An encoded program decodes, word by word, to itself (R67). -/
theorem map_decode_of_encodeFrom (h : encodeFrom k p = .ok image) : image.map decode = p.map .ok := by
  induction p generalizing k image with
  | nil =>
    cases h
    rfl
  | cons i p ih =>
    cases hi : encode i with
    | error e => simp [encodeFrom, hi] at h
    | ok w =>
      cases hp : encodeFrom (k + 1) p with
      | error e => simp [encodeFrom, hi, hp] at h
      | ok rest =>
        have himage : w :: rest = image := by simpa [encodeFrom, hi, hp] using h
        rw [← himage, List.map_cons, List.map_cons, decode_of_encode hi, ih hp]

/-- Without the placeholder every instruction has its word (R62). -/
theorem exists_encodeFrom_of_noop_notMem (h : .noop ∉ p) (k : Nat) : ∃ image, encodeFrom k p = .ok image := by
  induction p generalizing k with
  | nil => exact ⟨[], rfl⟩
  | cons i p ih =>
    obtain ⟨hi, hp⟩ := not_or.mp (mt List.mem_cons.mpr h)
    obtain ⟨rest, hrest⟩ := ih hp (k + 1)
    cases hw : encode i with
    | error e => exact absurd ((encode_eq_error_iff i).mp ⟨e, hw⟩).symm hi
    | ok w => exact ⟨w :: rest, by simp only [encodeFrom, hw, hrest]⟩

/-- The encoder of a program stops at the first placeholder, and its error is that index (R63, R71). -/
theorem first_noop_of_encodeFrom_error {e : ToolError} (h : encodeFrom k p = .error e) :
    ∃ j, e = .encodingError (k + j) ∧ p[j]? = some .noop ∧ ∀ j', j' < j → p[j']? ≠ some .noop := by
  induction p generalizing k with
  | nil => cases h
  | cons i p ih =>
    cases hi : encode i with
    | error f =>
      have he : ToolError.encodingError k = e := by simpa [encodeFrom, hi] using h
      obtain rfl : i = .noop := (encode_eq_error_iff i).mp ⟨f, hi⟩
      exact ⟨0, he.symm, rfl, fun j' hj' => absurd hj' j'.not_lt_zero⟩
    | ok w =>
      have hp : encodeFrom (k + 1) p = .error e := by
        cases hp : encodeFrom (k + 1) p with
        | ok rest => simp [encodeFrom, hi, hp] at h
        | error f => simpa [encodeFrom, hi, hp] using h
      obtain ⟨j, he, hnoop, hfirst⟩ := ih hp
      refine ⟨j + 1, by rw [he, Nat.add_assoc, Nat.add_comm 1], hnoop, fun j' hj' => ?_⟩
      cases j' with
      | zero =>
        rintro ⟨⟩
        cases hi
      | succ j' => exact hfirst j' (Nat.lt_of_succ_lt_succ hj')

theorem listing_of_encodeProgram (h : encodeProgram p = .ok image) :
    listing p = .ok (String.ofList (listingFrom 0 image)) := by
  simp only [listing, h]

theorem listing_of_encodeProgram_error {e : ToolError} (h : encodeProgram p = .error e) : listing p = .error e := by
  simp only [listing, h]

/-- A listing is the listing of the program's word image. -/
theorem image_of_listing {text : String} (h : listing p = .ok text) :
    ∃ image, encodeProgram p = .ok image ∧ text = String.ofList (listingFrom 0 image) := by
  cases hp : encodeProgram p with
  | error e => cases (listing_of_encodeProgram_error hp).symm.trans h
  | ok image =>
    cases (listing_of_encodeProgram hp).symm.trans h
    exact ⟨image, rfl, rfl⟩

theorem encodeProgram_error_of_listing {e : ToolError} (h : listing p = .error e) : encodeProgram p = .error e := by
  cases hp : encodeProgram p with
  | error f => exact congrArg _ (Except.error.inj ((listing_of_encodeProgram_error hp).symm.trans h))
  | ok image => cases (listing_of_encodeProgram hp).symm.trans h

/-- No word decodes to the placeholder, so an encoded program holds none (R66). -/
theorem noop_notMem_of_encodeProgram (h : encodeProgram p = .ok image) : .noop ∉ p := by
  intro hmem
  have hnoop : Except.ok Instr.noop ∈ image.map decode := by
    rw [map_decode_of_encodeFrom h]
    exact List.mem_map_of_mem hmem
  obtain ⟨w, -, hw⟩ := List.mem_map.mp hnoop
  exact noWordForNoop.2 w hw

end Encode

/-- Settles O50: the listing fails with the encoder of the program, at the first placeholder. -/
theorem listingFailsExactlyAtNoop : Obligations.ListingFailsExactlyAtNoop := by
  refine ⟨fun p => ⟨fun ⟨text, h⟩ => ?_, fun h => ?_⟩, fun p e h => ?_⟩
  · obtain ⟨image, himage, -⟩ := image_of_listing h
    exact noop_notMem_of_encodeProgram himage
  · obtain ⟨image, himage⟩ := exists_encodeFrom_of_noop_notMem h 0
    exact ⟨_, listing_of_encodeProgram himage⟩
  · obtain ⟨j, he, hnoop, hfirst⟩ := first_noop_of_encodeFrom_error (encodeProgram_error_of_listing h)
    exact ⟨j, by rw [he, Nat.zero_add], hnoop, hfirst⟩

/-! ### The text of a listing -/

section Text

theorem hexDigit_injective : ∀ m n : BitVec 4, hexDigit m = hexDigit n → m = n := by decide

/-- A half-word is its four hexadecimal digits. -/
theorem digits_append (h : BitVec 16) :
    h.extractLsb' 12 4 ++ h.extractLsb' 8 4 ++ h.extractLsb' 4 4 ++ h.extractLsb' 0 4 = h := by
  ext k hk
  grind

theorem hex4_injective {g h : BitVec 16} (heq : hex4 g = hex4 h) : g = h := by
  simp only [hex4, List.cons.injEq, and_true] at heq
  obtain ⟨h3, h2, h1, h0⟩ := heq
  rw [← digits_append g, hexDigit_injective _ _ h3, hexDigit_injective _ _ h2, hexDigit_injective _ _ h1,
    hexDigit_injective _ _ h0, digits_append]

/-- A word is its two halves. -/
theorem halves_append (w : Word) : w.extractLsb' 16 16 ++ w.extractLsb' 0 16 = w := by
  ext k hk
  grind

/-- All lines of one index have the same length. -/
theorem length_listingLine (k : Nat) (v w : Word) : (listingLine k v).length = (listingLine k w).length := by
  simp only [listingLine, List.length_append, hex4, List.length_cons]

/-- The word can be read from its line. -/
theorem listingLine_injective {k : Nat} {v w : Word} (h : listingLine k v = listingLine k w) : v = w := by
  simp only [listingLine, List.append_assoc, List.append_cancel_left_eq] at h
  obtain ⟨hhigh, hrest⟩ := List.append_inj h rfl
  obtain ⟨hlow, -⟩ := List.append_inj (List.append_cancel_left hrest) rfl
  rw [← halves_append v, hex4_injective hhigh, hex4_injective hlow, halves_append]

theorem listingLine_ne_nil (k : Nat) (w : Word) : listingLine k w ≠ [] := by
  simp [listingLine, hex4]

/-- The lines determine the words: lines of one index have one length, so that the first line can be cut off. -/
theorem listingFrom_injective {k : Nat} {v w : List Word} (h : listingFrom k v = listingFrom k w) : v = w := by
  induction v generalizing k w with
  | nil =>
    cases w with
    | nil => rfl
    | cons b w => exact absurd (List.append_eq_nil_iff.mp h.symm).1 (listingLine_ne_nil k b)
  | cons a v ih =>
    cases w with
    | nil => exact absurd (List.append_eq_nil_iff.mp h).1 (listingLine_ne_nil k a)
    | cons b w =>
      obtain ⟨hline, hrest⟩ := List.append_inj h (length_listingLine k a b)
      rw [listingLine_injective hline, ih hrest]

end Text

/-- Settles O51: the text determines the words, and the words decode to the program. -/
theorem listingDeterminesProgram : Obligations.ListingDeterminesProgram := by
  intro p q text hp hq
  obtain ⟨v, hv, hvtext⟩ := image_of_listing hp
  obtain ⟨w, hw, hwtext⟩ := image_of_listing hq
  have hsame : v = w := listingFrom_injective (String.ofList_injective (hvtext.symm.trans hwtext))
  have hmap : p.map Except.ok = q.map (Except.ok (ε := Illegal)) := by
    rw [← map_decode_of_encodeFrom hv, ← map_decode_of_encodeFrom hw, hsame]
  exact List.map_injective_iff.mpr (fun _ _ => Except.ok.inj) hmap

end Sys2Proof.Machine

/-! PROOFS. The statements of 30_encoding.md section 7: trimming (R79), labels (R76, R81) and symbolic jumps (R77). -/

namespace Sys2Proof.Machine

/-! ### Trimming -/

section Trim

/-- Trimming is the library's removal from the right. -/
theorem trimNoops_eq_rdropWhile (is : List Instr) : trimNoops is = is.rdropWhile (· == .noop) := rfl

theorem trimNoops_append_rtakeWhile (is : List Instr) : trimNoops is ++ is.rtakeWhile (· == .noop) = is :=
  List.rdropWhile_append_rtakeWhile

/-- What is trimmed off consists of placeholders. -/
theorem eq_noop_of_mem_rtakeWhile {is : List Instr} {i : Instr} (h : i ∈ is.rtakeWhile (· == .noop)) : i = .noop :=
  beq_iff_eq.mp (List.mem_rtakeWhile_imp (p := (· == Instr.noop)) h)

end Trim

/-- Settles O52: what trimming keeps does not end in a placeholder, and it drops placeholders only. -/
theorem trimRemovesTrailingNoopsOnly : Obligations.TrimRemovesTrailingNoopsOnly := by
  refine fun is => ⟨?_, (is.rtakeWhile (· == .noop)).length, ?_⟩
  · rw [noTrailingNoop, bne_iff_ne, trimNoops_eq_rdropWhile]
    intro hlast
    obtain ⟨hne, hlast⟩ := List.mem_getLast?_eq_getLast hlast
    exact List.rdropWhile_last_not _ _ hne (beq_iff_eq.mpr hlast.symm)
  · rw [← List.eq_replicate_of_mem fun i hi => eq_noop_of_mem_rtakeWhile hi, trimNoops_append_rtakeWhile]

/-! ### Labels -/

section Labels
variable {k : Nat} {sts : List Statement} {name : List Char}

/-- The address advances past the statements that produce an instruction (R76). -/
theorem labelsFrom_append (k : Nat) (before after : List Statement) :
    labelsFrom k (before ++ after) = labelsFrom k before ++ labelsFrom (k + addressOf before) after := by
  induction before generalizing k with
  | nil => rfl
  | cons st before ih =>
    cases st with
    | label n => simp [labelsFrom, ih, addressOf]
    | comment => simp [labelsFrom, ih, addressOf]
    | instr i => simp [labelsFrom, ih, addressOf, Nat.add_assoc, Nat.add_comm 1]
    | symJump m n => simp [labelsFrom, ih, addressOf, Nat.add_assoc, Nat.add_comm 1]

/-- Pass 1 lists only names that are defined. -/
theorem label_mem_of_mem_labelsFrom {c : List Char × Nat} (h : c ∈ labelsFrom k sts) : .label c.1 ∈ sts := by
  induction sts generalizing k with
  | nil => cases h
  | cons st sts ih =>
    cases st with
    | label n =>
      rcases List.mem_cons.mp h with rfl | h
      · exact List.mem_cons_self
      · exact List.mem_cons_of_mem _ (ih h)
    | comment | instr | symJump => exact List.mem_cons_of_mem _ (ih h)

theorem lookup_labelsFrom_of_notMem (h : .label name ∉ sts) : (labelsFrom k sts).reverse.lookup name = none := by
  refine List.lookup_eq_none_iff.mpr fun c hc => bne_iff_ne.mpr ?_
  rintro rfl
  exact h (label_mem_of_mem_labelsFrom (List.mem_reverse.mp hc))

end Labels

/-- Settles O53: read from the last definition on, the later statements hold none of the name, and the definition
before them gives its address. -/
theorem lastLabelNamesNextAddress : Obligations.LastLabelNamesNextAddress := by
  intro before after name hafter
  rw [labelAddr, labelsFrom_append, labelsFrom, List.reverse_append, List.reverse_cons, List.append_assoc,
    List.lookup_append, lookup_labelsFrom_of_notMem hafter, Option.none_or, List.singleton_append,
    List.lookup_cons_self, Nat.zero_add]

/-! ### Symbolic jumps -/

section Jumps
variable {labels : List (List Char × Nat)} {k a : Nat} {mask : Mask} {name : List Char}

/-- An accepted byte holds the value that was checked, never a truncated one (R77, D21). -/
theorem toInt_of_toImm {v : Int} {b : Byte} (h : toImm v = .ok b) : b.toInt = v := by
  unfold toImm at h
  split at h
  · next hrange =>
    cases h
    exact toInt_ofInt_of_signedRange hrange.1 hrange.2
  · cases h

theorem toImm_of_not_mem {v : Int} (h : v < -128 ∨ 127 < v) : toImm v = .error (.rangeError v) :=
  if_neg (by omega)

theorem resolveJump_of_none (h : labelAddr labels name = none) :
    resolveJump labels k mask name = .error (.unresolvedLabelError name) := by
  simp only [resolveJump, h]

theorem resolveJump_of_some (h : labelAddr labels name = some a) :
    resolveJump labels k mask name = (toImm ((a : Int) - k)).bind fun off => .ok (.brq mask off) := by
  simp only [resolveJump, h]

/-- A resolved jump is a branch whose offset leads from its own address to the label's (R77). -/
theorem brq_of_resolveJump {i : Instr} (h : resolveJump labels k mask name = .ok i) :
    ∃ a off, labelAddr labels name = some a ∧ i = .brq mask off ∧ off.toInt = (a : Int) - k := by
  cases hlabel : labelAddr labels name with
  | none => cases (resolveJump_of_none hlabel).symm.trans h
  | some a =>
    rw [resolveJump_of_some hlabel] at h
    cases himm : toImm ((a : Int) - k) with
    | error e =>
      rw [himm] at h
      cases h
    | ok off =>
      rw [himm] at h
      cases h
      exact ⟨a, off, rfl, rfl, toInt_of_toImm himm⟩

/-- From address `k` an offset of `a - k` leads to address `a`, modulo 2^32 (R101). -/
theorem branchTarget_of_offset {s : State} {off : Byte} (hpc : s.pc = BitVec.ofNat 32 k)
    (hoff : off.toInt = (a : Int) - k) : s.branchTarget off = BitVec.ofNat 32 a := by
  rw [State.branchTarget, hpc, sext32_eq_wrap32, hoff, ← wrap32_natCast, ← wrap32_natCast, ← wrap32_add,
    add_sub_cancel]

end Jumps

/-- Settles O54: a resolved jump is a branch to its label, and an undefined name or an offset out of range is an
error. -/
theorem symbolicJumpReachesItsLabel : Obligations.SymbolicJumpReachesItsLabel := by
  refine fun labels k mask name => ⟨fun i h => ?_, fun h => resolveJump_of_none h, fun a ha hrange => ?_⟩
  · obtain ⟨a, off, hlabel, rfl, hoff⟩ := brq_of_resolveJump h
    refine ⟨a, off, hlabel, rfl, hoff, fun s hpc htaken => ?_⟩
    exact ⟨_, exec_brq_of_taken off htaken, branchTarget_of_offset hpc hoff⟩
  · rw [resolveJump_of_some ha, toImm_of_not_mem hrange]
    rfl

end Sys2Proof.Machine
